-- ==== Sys2Proof/Word.lean ====
section
/-! DEFINITION. The bit-vector types of the SDX: words, frame bytes, channel codes, binary64 patterns and requests. -/

namespace Sys2Proof

/-- A 32-bit word: `CNT`, `ACC`, `ET`, a sample word, the `DATA` field (10_state.md R21, 30_encoding.md R61). -/
abbrev Word := BitVec 32

/-- One byte of the wire format (20_memory.md R43). -/
abbrev Byte := BitVec 8

/-- A 6-bit channel code, 0 to 63 (30_encoding.md R67). -/
abbrev Code := BitVec 6

/-- The 3-bit operation code `OP` (30_encoding.md R61). -/
abbrev OpCode := BitVec 3

/-- A binary64 value as its bit pattern (30_encoding.md R63, 00_scope.md R9). -/
abbrev F64 := BitVec 64

/-- A 35-bit request `REQ` (30_encoding.md R61). -/
abbrev Request := BitVec 35

end Sys2Proof
end

