-- ==== Sys2Proof/Config.lean ====
section
/-! DEFINITION. What the build of an SDX fixes, and the values its spec leaves open. -/

namespace Sys2Proof

/-- The build-time parameter `N`, the number of sample words per capture, with the range that 00_scope.md R6 gives it
(D7). A build outside the range, `N = 0` among them, has no `Config`: 70_reset_and_hazards.md R168, log 2. -/
structure Config where
  n : Nat
  positive : 1 ≤ n
  bounded : n ≤ 1073741822
deriving DecidableEq, Repr

namespace Config

/-- The reference value of the document, N = 10000 (00_scope.md R6). -/
def reference : Config := ⟨10000, by decide, by decide⟩

/-- The configuration for `n` sample words; refused outside the range (R6, R168). -/
def ofNat? (n : Nat) : Option Config :=
  if h : 1 ≤ n ∧ n ≤ 1073741822 then some ⟨n, h.1, h.2⟩ else none

/-- `FRAME_LEN = 4*N + 4` as a number (00_scope.md R7). -/
def frameBytes (c : Config) : Nat := 4 * c.n + 4

/-- `FRAME_LEN` as the 32-bit value that `CNT` is compared with (00_scope.md R6: it fits). -/
def frameLen (c : Config) : Word := BitVec.ofNat 32 c.frameBytes

end Config

/-- FREE VALUE, log 8: the bit pattern a binary64 operation gives on operands for which IEEE 754 delivers a NaN. The
spec says that none arises in an SDX (41_field_extract.md R108) and names no canonical NaN. -/
opaque Config.nanResult : F64 → F64 → F64

end Sys2Proof
end

