-- ==== Sys2Proof/Syntax.lean ====
section
/-! DEFINITION. The operations of the SDX, one constructor per row of spec/opcode_table.json, and the two bit formats of
that table. -/

namespace Sys2Proof

/-- The rows of spec/opcode_table.json with the operand bits their operation uses (30_encoding.md R62, R64). -/
inductive Instr where
  /-- OP 0 (40_frame_input.md R81). -/
  | clear
  /-- OP 1: the frame byte `b = DATA[7:0]` (40_frame_input.md R83). -/
  | pushByte (b : Byte)
  /-- OP 2: the unsigned sample index `i = DATA` (42_sample_readout.md R120). -/
  | readSample (i : Word)
  /-- OP 3 (40_frame_input.md R85). -/
  | readStatus
  /-- OP 4: the raw sample word `w = DATA`, ignored bits kept (41_field_extract.md R100). -/
  | extract (w : Word)
  /-- OP 5: reserved, illegal (60_exceptions.md R141). -/
  | illegalOp5
  /-- OP 6 or 7: reserved, illegal; `op` is the code itself (60_exceptions.md R141). -/
  | illegalOp67 (op : OpCode)
  /-- The row SAMPLE_WORD, which is "not an operation": a raw sample word in the layout of 30_encoding.md R66
  (R73), log 10. -/
  | sampleWord (w : Word)
deriving DecidableEq, Repr

/-- The mnemonic of an operation, as spec/opcode_table.json spells it. -/
def Instr.mnemonic : Instr → String
  | .clear => "CLEAR"
  | .pushByte _ => "PUSH_BYTE"
  | .readSample _ => "READ_SAMPLE"
  | .readStatus => "READ_STATUS"
  | .extract _ => "EXTRACT"
  | .illegalOp5 => "ILLEGAL_OP5"
  | .illegalOp67 _ => "ILLEGAL_OP6_7"
  | .sampleWord _ => "SAMPLE_WORD"

/-- A word in one of the two formats of spec/opcode_table.json: `REQ35`, a request of the port, or `SAMPLE32`, a stored
sample word (30_encoding.md R73). -/
inductive TableWord where
  | request (r : Request)
  | sample (w : Word)
deriving DecidableEq, Repr

end Sys2Proof
end

