-- ==== Sys2Proof/WellFormed.lean ====
section
/-! DEFINITION. Which terms of `Instr` stand for an operation of the table. -/

namespace Sys2Proof

/-- The op code of the row ILLEGAL_OP6_7 is 6 or 7 (30_encoding.md R62). Every operand value of every other row is legal
(R69). -/
def Instr.wf : Instr → Bool
  | .clear => true
  | .pushByte _ => true
  | .readSample _ => true
  | .readStatus => true
  | .extract _ => true
  | .illegalOp5 => true
  | .illegalOp67 op => op == 6#3 || op == 7#3
  | .sampleWord _ => true

end Sys2Proof
end

