-- ==== Sys2Proof/Decode.lean ====
section
/-! DEFINITION. From bits to operations and back: the request format, the decoder, the encoder, and the mask and match
rows of the opcode table. -/

namespace Sys2Proof

/-- `OP = REQ[34:32]` (30_encoding.md R61). -/
def Request.op (r : Request) : OpCode := BitVec.extractLsb' 32 3 r

/-- `DATA = REQ[31:0]` (30_encoding.md R61). -/
def Request.data (r : Request) : Word := BitVec.extractLsb' 0 32 r

/-- The request `OP:DATA`, the number `OP * 2^32 + DATA` (30_encoding.md R61). -/
def Request.make (op : OpCode) (data : Word) : Request := op ++ data

/-- A request's operation (30_encoding.md R72): select on `OP` alone, then take the operand from `DATA` as R64 says.
The last case is op code 6 or 7, the row ILLEGAL_OP6_7. Total on all 2^35 requests. -/
def decodeRequest (r : Request) : Instr :=
  match r.op.toNat with
  | 0 => .clear
  | 1 => .pushByte (BitVec.extractLsb' 0 8 r.data)
  | 2 => .readSample r.data
  | 3 => .readStatus
  | 4 => .extract r.data
  | 5 => .illegalOp5
  | _ => .illegalOp67 r.op

/-- The row a word of either format stands for (30_encoding.md R73): every 32-bit value is a legal sample word. -/
def decode : TableWord → Instr
  | .request r => decodeRequest r
  | .sample w => .sampleWord w

/-- The word of an operation, its ignored bits written as 0 (30_encoding.md R62, R64, R71). An `illegalOp67` keeps its
own op code. -/
def encode : Instr → TableWord
  | .clear => .request (Request.make 0#3 0#32)
  | .pushByte b => .request (Request.make 1#3 (BitVec.setWidth 32 b))
  | .readSample i => .request (Request.make 2#3 i)
  | .readStatus => .request (Request.make 3#3 0#32)
  | .extract w => .request (Request.make 4#3 w)
  | .illegalOp5 => .request (Request.make 5#3 0#32)
  | .illegalOp67 op => .request (Request.make op 0#32)
  | .sampleWord w => .sample w

/-- Why a bit string is a word of neither format. -/
inductive DecodeError where
  /-- A 32-bit string with a bit above bit 31. -/
  | aboveSampleWord
  /-- A request has 35 bits (30_encoding.md R61, R70) and a bit above bit 34 is set. -/
  | aboveRequest
deriving DecidableEq, Repr

/-- A string of `nbits` bits with value `w`, read in the format its length names: up to 32 bits `SAMPLE32`, more than
that `REQ35` in whole bytes (log 11). -/
def readTableWord (nbits w : Nat) : Except DecodeError TableWord :=
  if nbits ≤ 32 then
    if w < 2 ^ 32 then .ok (.sample (BitVec.ofNat 32 w)) else .error .aboveSampleWord
  else
    if w < 2 ^ 35 then .ok (.request (BitVec.ofNat 35 w)) else .error .aboveRequest

/-- The operation read from a row's bits, numbered as spec/opcode_table.json numbers them. -/
def decodeTableWord (nbits w : Nat) : Option Instr :=
  match readTableWord nbits w with
  | .ok t => some (decode t)
  | .error _ => none

/-- A `REQ35` row of spec/opcode_table.json: its mnemonic, `mask` and `match` (30_encoding.md R73). -/
structure TableRow where
  mnemonic : String
  mask : Request
  pattern : Request
deriving DecidableEq, Repr

/-- The request `r` selects the row: `r & mask == match` (30_encoding.md R73). -/
def TableRow.selects (row : TableRow) (r : Request) : Bool := r &&& row.mask == row.pattern

/-- The seven `REQ35` rows, in the table's order. -/
def requestTable : List TableRow :=
  [⟨"CLEAR", 0x700000000#35, 0x0#35⟩,
   ⟨"PUSH_BYTE", 0x700000000#35, 0x100000000#35⟩,
   ⟨"READ_SAMPLE", 0x700000000#35, 0x200000000#35⟩,
   ⟨"READ_STATUS", 0x700000000#35, 0x300000000#35⟩,
   ⟨"EXTRACT", 0x700000000#35, 0x400000000#35⟩,
   ⟨"ILLEGAL_OP5", 0x700000000#35, 0x500000000#35⟩,
   ⟨"ILLEGAL_OP6_7", 0x600000000#35, 0x600000000#35⟩]

/-- The bits of a request that its operation reads: all others are ignored (30_encoding.md R64). For op codes 6 and 7
the low bit of `OP` is one of the bits the decoder selects on (R62). -/
def usedBits (r : Request) : Request :=
  match r.op.toNat with
  | 1 => 0x7000000FF#35
  | 2 => 0x7FFFFFFFF#35
  | 4 => 0x7FFFFFFFF#35
  | _ => 0x700000000#35

end Sys2Proof
end

