-- ==== Sys2Proof/Machine/State.lean ====
section
/-! DEFINITION. The state of the SDX, the responses it returns, what the host may put to it, and its reset. -/

namespace Sys2Proof.Machine

/-- The status codes of 60_exceptions.md R140; the codes 5 to 7 are "never produced" and have no name (log 12). -/
inductive Status where
  | ok
  | notReady
  | index
  | overrun
  | illegalOp
deriving DecidableEq, Repr

/-- A response record (30_encoding.md R63); the defaults are the value 0 of every field an operation does not name. -/
structure Response where
  /-- Status code. -/
  st : Status
  /-- Phase flag RDY. -/
  rdy : Bool := false
  /-- Value of CNT. -/
  cnt : Word := 0#32
  /-- Channel A code. -/
  cha : Code := 0#6
  /-- Channel B code. -/
  chb : Code := 0#6
  /-- Time offset in nanoseconds, binary64. -/
  toff : F64 := 0#64
  /-- Channel A voltage in volts, binary64. -/
  va : F64 := 0#64
  /-- Channel B voltage in volts, binary64. -/
  vb : F64 := 0#64
deriving DecidableEq, Repr

/-- The sample store `S`: pairs of word index and 32-bit word, indices strictly rising, no pair that holds what an
unlisted index reads as (`Memory.wf`). The index is the only address (20_memory.md R40, R41), log 14. -/
abbrev Memory := List (Nat × Word)

/-- What an index that no pair lists reads as. The spec leaves the contents of `S` before the first frame unspecified
(10_state.md R34) and unobservable (R35): DESIGN CHOICE, log 3. -/
def Memory.unlisted : Word := 0#32

/-- What the host may put to the SDX between transactions. -/
inductive Input where
  /-- A word put to the port. A transaction is a `request` (30_encoding.md R60); a bare `sample` word is no transaction
  of the port and is there for the table's row SAMPLE_WORD only (log 10). -/
  | word (t : TableWord)
  /-- A reset (70_reset_and_hazards.md R160). It carries the unspecified values that `S` and `ET` take, as the
  environment draws them (10_state.md R34), log 5. -/
  | reset (samples : List Word) (et : Word)
deriving DecidableEq, Repr

/-- The state: the four elements of 10_state.md R21, and with them the build's configuration, the host's requests that
wait and the responses returned (logs 1, 6, 7). -/
structure State where
  /-- N and with it FRAME_LEN; no step changes it. -/
  cfg : Config
  /-- `CNT`: frame bytes accepted since the last reset or CLEAR (R21, R22). -/
  cnt : Word
  /-- `ACC`: the word being assembled (R24). -/
  acc : Word
  /-- `S[0..N-1]` (20_memory.md R40). -/
  samples : Memory
  /-- `ET`: the elapsed-time word, unsigned nanoseconds (R25). -/
  et : Word
  /-- What the host has issued and the SDX has not performed, oldest first. -/
  pending : List Input
  /-- The responses returned so far, oldest first: the observation of a run (70_reset_and_hazards.md R171). -/
  responses : List Response
deriving DecidableEq, Repr

/-- No fault exists: "The SDX itself never halts, faults, hangs or gets stuck" (70_reset_and_hazards.md R171). -/
inductive Fault where
deriving DecidableEq, Repr

/-- Why the model gives an item of the table no step. -/
inductive Refusal where
  /-- Raised by a row of the opcode table that has no meaning in the model. No row is left so. Safe. -/
  | notModelled (mnemonic : String)
  /-- Raised by the row SAMPLE_WORD, which is "not an operation" (30_encoding.md R73): no request of the port is one.
  Safe. -/
  | notAnOperation
deriving DecidableEq, Repr

/-- Power-on for a build: `CNT` and `ACC` are 0 (10_state.md R34); `S` lists nothing and `ET` is 0, which the spec leaves
unspecified (DESIGN CHOICE, logs 3 and 4). -/
def State.powerOn (c : Config) : State :=
  { cfg := c, cnt := 0#32, acc := 0#32, samples := [], et := 0#32, pending := [], responses := [] }

/-- The machine right after reset, for the reference build N = 10000 (00_scope.md R6, log 1). -/
def State.reset : State := State.powerOn Config.reference

end Sys2Proof.Machine
end

