-- ==== Sys2Proof/Machine/Flags.lean ====
section
/-! DEFINITION. The one flag of the SDX, RDY, the phases it names, and the status codes. -/

namespace Sys2Proof.Machine

/-- The two phases of the receiver (10_state.md R23). -/
inductive Phase where
  | recv
  | ready
deriving DecidableEq, Repr

/-- `RDY`, derived from `CNT` and not stored: `CNT == FRAME_LEN` (10_state.md R23, R28). -/
def State.rdy (s : State) : Bool := s.cnt == s.cfg.frameLen

/-- The phase that `RDY` names (10_state.md R23). -/
def State.phase (s : State) : Phase := if s.rdy then .ready else .recv

/-- The 3-bit status code `st` (60_exceptions.md R140). -/
def Status.code : Status → BitVec 3
  | .ok => 0#3
  | .notReady => 1#3
  | .index => 2#3
  | .overrun => 3#3
  | .illegalOp => 4#3

end Sys2Proof.Machine
end

