-- ==== Sys2Proof/Machine/Operands.lean ====
section
/-! DEFINITION. The operands of the SDX: the five fields of a raw sample word, the two channel codes assembled from them,
and the word that carries two given codes. -/

namespace Sys2Proof.Machine

/-- `A_LO = w[11:7]` (30_encoding.md R66). -/
def fieldALo (w : Word) : BitVec 5 := BitVec.extractLsb' 7 5 w

/-- `A_HI = w[25]` (30_encoding.md R66). -/
def fieldAHi (w : Word) : BitVec 1 := BitVec.extractLsb' 25 1 w

/-- `B_LO = w[18:17]` (30_encoding.md R66). -/
def fieldBLo (w : Word) : BitVec 2 := BitVec.extractLsb' 17 2 w

/-- `B_MID = w[24:22]` (30_encoding.md R66). -/
def fieldBMid (w : Word) : BitVec 3 := BitVec.extractLsb' 22 3 w

/-- `B_HI = w[27]` (30_encoding.md R66). -/
def fieldBHi (w : Word) : BitVec 1 := BitVec.extractLsb' 27 1 w

/-- `ChA(w) = w[25] ++ w[11:7]` (41_field_extract.md R101, 30_encoding.md R67). -/
def chA (w : Word) : Code := fieldAHi w ++ fieldALo w

/-- `ChB(w) = w[27] ++ w[24:22] ++ w[18:17]` (41_field_extract.md R102, 30_encoding.md R67). -/
def chB (w : Word) : Code := fieldBHi w ++ fieldBMid w ++ fieldBLo w

/-- `Enc(a, b)`, the word that carries the codes `a` and `b` (41_field_extract.md R104). -/
def encodeCodes (a b : Code) : Word :=
  (BitVec.setWidth 32 (BitVec.extractLsb' 5 1 a) <<< 25)
    ||| (BitVec.setWidth 32 (BitVec.extractLsb' 0 5 a) <<< 7)
    ||| (BitVec.setWidth 32 (BitVec.extractLsb' 5 1 b) <<< 27)
    ||| (BitVec.setWidth 32 (BitVec.extractLsb' 2 3 b) <<< 22)
    ||| (BitVec.setWidth 32 (BitVec.extractLsb' 0 2 b) <<< 17)

/-- `v` with byte `j` replaced, `v[8j+7:8j] = b`, its other bits unchanged (40_frame_input.md R83). -/
def setByte (v : Word) (j : Nat) (b : Byte) : Word :=
  (v &&& ~~~(0xFF#32 <<< (8 * j))) ||| (BitVec.setWidth 32 b <<< (8 * j))

/-- Byte `j` of a word, `v[8j+7:8j]` (10_state.md R24, 20_memory.md R44). -/
def getByte (v : Word) (j : Nat) : Byte := BitVec.extractLsb' (8 * j) 8 v

end Sys2Proof.Machine
end

