-- ==== Sys2Proof/Machine/Float.lean ====
section
/-! DEFINITION. Binary64 on bit patterns: `f64`, `fdiv` and `fmul` of 00_scope.md R11, rounded to nearest, ties to even
(R9). The format is the spec's decision D6; its arithmetic is IEEE 754's, general knowledge (G1), log 8. -/

namespace Sys2Proof.Machine

/-- The sign bit, bit 63. -/
def f64Sign (x : F64) : Bool := x.getLsbD 63

/-- The biased exponent, bits 62 to 52. -/
def f64Exponent (x : F64) : Nat := (BitVec.extractLsb' 52 11 x).toNat

/-- The fraction, bits 51 to 0. -/
def f64Fraction (x : F64) : Nat := (BitVec.extractLsb' 0 52 x).toNat

/-- A NaN: largest exponent, fraction not 0. -/
def f64IsNaN (x : F64) : Bool := f64Exponent x == 2047 && f64Fraction x != 0

/-- An infinity: largest exponent, fraction 0. -/
def f64IsInf (x : F64) : Bool := f64Exponent x == 2047 && f64Fraction x == 0

/-- A finite value: exponent below the largest. -/
def f64IsFinite (x : F64) : Bool := f64Exponent x != 2047

/-- Plus or minus zero. -/
def f64IsZero (x : F64) : Bool := f64Exponent x == 0 && f64Fraction x == 0

/-- The integer significand of a finite value: hidden bit set for normal values. -/
def f64Significand (x : F64) : Nat :=
  if f64Exponent x = 0 then f64Fraction x else 2 ^ 52 + f64Fraction x

/-- The exponent of the significand's unit: a finite `x` has magnitude `f64Significand x * 2 ^ f64Unit x`. -/
def f64Unit (x : F64) : Int := (max (f64Exponent x) 1 : Nat) - 1075

/-- The pattern of the infinity of sign `neg`. -/
def f64Infinity (neg : Bool) : F64 := if neg then 0xFFF0000000000000#64 else 0x7FF0000000000000#64

/-- The pattern of the zero of sign `neg`. -/
def f64Zero (neg : Bool) : F64 := if neg then 0x8000000000000000#64 else 0#64

/-- `p / q` rounded to the nearest integer, a tie to the even one (`q` positive). -/
def roundTiesEven (p q : Nat) : Nat :=
  if 2 * (p % q) < q then p / q
  else if q < 2 * (p % q) then p / q + 1
  else p / q + (p / q) % 2

/-- The floor of the base-2 logarithm of `p / q` (both positive). -/
def ratioLog2 (p q : Nat) : Int :=
  if q * 2 ^ p.log2 ≤ p * 2 ^ q.log2 then (p.log2 : Int) - q.log2 else (p.log2 : Int) - q.log2 - 1

/-- The exponent of the unit in which binary64 rounds `p / q * 2 ^ e`: 53 significant bits, and never below the unit of
the subnormals. -/
def roundUnit (p q : Nat) (e : Int) : Int := max (ratioLog2 p q + e - 52) (-1074)

/-- The magnitude `p / q * 2 ^ e` (`q` positive) rounded to binary64, to nearest, ties to even; too large a result is the
infinity. A significand that rounds up to `2 ^ 53` carries into the exponent by the addition. -/
def roundMagnitude (p q : Nat) (e : Int) : Nat :=
  if p = 0 then 0
  else
    min ((roundUnit p q e + 1074).toNat * 2 ^ 52
        + roundTiesEven (p * 2 ^ (e - roundUnit p q e).toNat) (q * 2 ^ (roundUnit p q e - e).toNat))
      (2047 * 2 ^ 52)

/-- The rounded magnitude with its sign bit. -/
def roundSigned (neg : Bool) (p q : Nat) (e : Int) : F64 :=
  BitVec.ofNat 64 (roundMagnitude p q e) ||| f64Zero neg

/-- `f64(n)`: the binary64 value of the integer `n`, exact below `2^53` (00_scope.md R11). -/
def f64 (n : Nat) : F64 := roundSigned false n 1 0

/-- `fmul(x, y)`: binary64 multiplication (00_scope.md R11). -/
def fmul (x y : F64) : F64 :=
  if f64IsNaN x || f64IsNaN y then Config.nanResult x y
  else if f64IsInf x || f64IsInf y then
    if f64IsZero x || f64IsZero y then Config.nanResult x y
    else f64Infinity (f64Sign x ^^ f64Sign y)
  else
    roundSigned (f64Sign x ^^ f64Sign y) (f64Significand x * f64Significand y) 1 (f64Unit x + f64Unit y)

/-- `fdiv(x, y)`: binary64 division (00_scope.md R11). -/
def fdiv (x y : F64) : F64 :=
  if f64IsNaN x || f64IsNaN y then Config.nanResult x y
  else if f64IsInf x then
    if f64IsInf y then Config.nanResult x y else f64Infinity (f64Sign x ^^ f64Sign y)
  else if f64IsInf y then f64Zero (f64Sign x ^^ f64Sign y)
  else if f64IsZero y then
    if f64IsZero x then Config.nanResult x y else f64Infinity (f64Sign x ^^ f64Sign y)
  else
    roundSigned (f64Sign x ^^ f64Sign y) (f64Significand x) (f64Significand y) (f64Unit x - f64Unit y)

/-- The rational number that a finite pattern stands for. -/
def f64ToRat (x : F64) : Rat :=
  (if f64Sign x then -1 else 1) * (f64Significand x : Rat) * (2 : Rat) ^ f64Unit x

end Sys2Proof.Machine
end

