-- ==== Sys2Proof/Machine/Scaling.lean ====
section
/-! DEFINITION. The two scaled outputs: channel voltage and time offset. -/

namespace Sys2Proof.Machine

/-- `K = fdiv(5.0, 63.0)`, the scale factor in volts per code step (41_field_extract.md R105). -/
def voltsPerStep : F64 := fdiv (f64 5) (f64 63)

/-- `Volts(v) = fmul(f64(v), K)`: the quotient rounded once, then the product (41_field_extract.md R105,
90_conflicts.md C1). -/
def volts (v : Code) : F64 := fmul (f64 v.toNat) voltsPerStep

/-- `q = fdiv(f64(ET), f64(N))`, the nanoseconds per sample (42_sample_readout.md R122). -/
def nsPerSample (n : Nat) (et : Word) : F64 := fdiv (f64 et.toNat) (f64 n)

/-- `TimeOffset(i, ET) = fmul(f64(i), q)`: a floating-point division first, the product second
(42_sample_readout.md R122, R124). -/
def timeOffset (n i : Nat) (et : Word) : F64 := fmul (f64 i) (nsPerSample n et)

end Sys2Proof.Machine
end

