-- ==== Sys2Proof/Machine/Ops.lean ====
section
/-! DEFINITION. The shared operations of the SDX: the memory primitives, returning a response, raising an error, accepting
a frame byte, clearing, resetting, and taking the next input. -/

namespace Sys2Proof.Machine

/-- `MemRead(k)`, for `k < N` (20_memory.md R42): the word listed at index `k`, or what an unlisted index reads as. -/
def Memory.read : Memory → Nat → Word
  | [], _ => Memory.unlisted
  | (j, x) :: rest, k => if j = k then x else Memory.read rest k

/-- The pair `(k, v)` before `rest`, left out where `v` is what an unlisted index reads as. -/
def Memory.put (k : Nat) (v : Word) (rest : Memory) : Memory :=
  if v = Memory.unlisted then rest else (k, v) :: rest

/-- `MemWrite(k, v)`, for `k < N` (20_memory.md R42): all 32 bits of `S[k]` at once (R45), the list kept in its canonical
form. -/
def Memory.write : Memory → Nat → Word → Memory
  | [], k, v => Memory.put k v []
  | (j, x) :: rest, k, v =>
    if k < j then Memory.put k v ((j, x) :: rest)
    else if k = j then Memory.put k v rest
    else (j, x) :: Memory.write rest k v

/-- The canonical form over the indices `lo` to `n - 1`: indices strictly rising and below `n`, no pair that holds what
an unlisted index reads as. -/
def Memory.wfFrom (n : Nat) : Nat → Memory → Bool
  | _, [] => true
  | lo, (j, x) :: rest => decide (lo ≤ j) && decide (j < n) && x != Memory.unlisted && Memory.wfFrom n (j + 1) rest

/-- The canonical form of a sample store of `n` words (20_memory.md R40: indices 0 to N-1). -/
def Memory.wf (n : Nat) (m : Memory) : Bool := Memory.wfFrom n 0 m

/-- The store whose words from index `k` on are those of the list, as far as index `n - 1`. -/
def Memory.ofWordsFrom (n : Nat) : Nat → List Word → Memory
  | _, [] => []
  | k, w :: ws => if k < n then Memory.put k w (Memory.ofWordsFrom n (k + 1) ws) else []

/-- The store of `n` words with the contents of a list, index 0 first. -/
def Memory.ofWords (n : Nat) (ws : List Word) : Memory := Memory.ofWordsFrom n 0 ws

/-- The state with one more response returned (30_encoding.md R60). -/
def State.respond (r : Response) (s : State) : State := { s with responses := s.responses ++ [r] }

/-- An error response: every field but `st` is 0 (30_encoding.md R63, 60_exceptions.md R143). -/
def errorResponse (st : Status) : Response := { st := st }

/-- A transaction that ends with the response `r` in the state `s`. -/
def reply (r : Response) (s : State) : Host.Outcome State Fault Refusal := .next (s.respond r)

/-- `raise E()`: the transaction ends with the error status, and "leaves all state unchanged" (00_scope.md R11,
60_exceptions.md R143, R146). This is all the SDX does on an error: it has no trap to take and none to return from
(R146, R147). -/
def raise (st : Status) (s : State) : Host.Outcome State Fault Refusal := reply (errorResponse st) s

/-- `CNT <- 0`, `ACC <- 0`, with `S` and `ET` kept (40_frame_input.md R81). -/
def State.clearFrame (s : State) : State := { s with cnt := 0#32, acc := 0#32 }

/-- Reset as an event between transactions (70_reset_and_hazards.md R160): `CNT` and `ACC` are 0, `S` and `ET` take the
values drawn; no response. -/
def State.resetTo (draws : List Word) (et : Word) (s : State) : State :=
  { s with cnt := 0#32, acc := 0#32, samples := Memory.ofWords s.cfg.n draws, et := et }

/-- `k = p div 4`, the index of the word that the next frame byte belongs to (40_frame_input.md R83, 20_memory.md R46). -/
def State.wordIndex (s : State) : Nat := s.cnt.toNat / 4

/-- `j = p mod 4`, the byte position of the next frame byte in its word (40_frame_input.md R83, 20_memory.md R46). -/
def State.byteLane (s : State) : Nat := s.cnt.toNat % 4

/-- The next frame byte completes its word. -/
def State.commits (s : State) : Bool := s.byteLane == 3

/-- The state after frame byte `b` (40_frame_input.md R83): `ACC` takes the byte in its lane; the fourth byte commits the
word to `S[k]`, or, past the samples, to `ET`; `CNT` counts it. -/
def State.acceptByte (b : Byte) (s : State) : State :=
  { s with
    cnt := s.cnt + 1#32
    acc := setByte s.acc s.byteLane b
    samples :=
      if s.commits ∧ s.wordIndex < s.cfg.n then s.samples.write s.wordIndex (setByte s.acc s.byteLane b)
      else s.samples
    et := if s.commits ∧ ¬ s.wordIndex < s.cfg.n then setByte s.acc s.byteLane b else s.et }

/-- The response of a transaction that reports the receiver: `st = OK`, `rdy`, `cnt` (40_frame_input.md R85). -/
def statusResponse (s : State) : Response := { st := .ok, rdy := s.rdy, cnt := s.cnt }

/-- The response that carries a sample word's codes and voltages beside the receiver's status, with time offset `toff`
(41_field_extract.md R100, 42_sample_readout.md R120). -/
def sampleResponse (s : State) (w : Word) (toff : F64) : Response :=
  { st := .ok, rdy := s.rdy, cnt := s.cnt, cha := chA w, chb := chB w, toff := toff,
    va := volts (chA w), vb := volts (chB w) }

/-- The state whose host has the inputs `ins` waiting. -/
def State.withPending (ins : List Input) (s : State) : State := { s with pending := ins }

/-- The next input of the host, in the order issued (20_memory.md R50), and the state that no longer waits for it. -/
def State.takeInput (s : State) : Option (Input × State) :=
  match s.pending with
  | [] => none
  | i :: rest => some (i, s.withPending rest)

end Sys2Proof.Machine
end

