-- ==== Sys2Proof/Machine/FieldExtract.lean ====
section
/-! DEFINITION. Field extraction: EXTRACT (41_field_extract.md). -/

namespace Sys2Proof.Machine

/-- EXTRACT (41_field_extract.md R100): codes and voltages of `w`, in every phase; `toff` is `+0.0`. -/
def execExtract (w : Word) (s : State) : Host.Outcome State Fault Refusal :=
  reply (sampleResponse s w 0#64) s

end Sys2Proof.Machine
end

