-- ==== Sys2Proof/Machine/FrameInput.lean ====
section
/-! DEFINITION. Frame input: CLEAR, PUSH_BYTE and READ_STATUS (40_frame_input.md). -/

namespace Sys2Proof.Machine

/-- CLEAR (40_frame_input.md R81): a new frame from byte 0; answers `rdy = 0`, `cnt = 0`. -/
def execClear (s : State) : Host.Outcome State Fault Refusal :=
  reply { st := .ok, rdy := false, cnt := 0#32 } s.clearFrame

/-- PUSH_BYTE (40_frame_input.md R83): E_OVERRUN in READY (60_exceptions.md R142), else the byte is accepted and the
response reports the state after it. -/
def execPushByte (b : Byte) (s : State) : Host.Outcome State Fault Refusal :=
  if s.cnt = s.cfg.frameLen then raise .overrun s
  else reply (statusResponse (s.acceptByte b)) (s.acceptByte b)

/-- READ_STATUS (40_frame_input.md R85): reports `RDY` and `CNT`. -/
def execReadStatus (s : State) : Host.Outcome State Fault Refusal :=
  reply (statusResponse s) s

end Sys2Proof.Machine
end

