-- ==== Sys2Proof/Machine/Reserved.lean ====
section
/-! DEFINITION. The rows of the opcode table that are no operation: the illegal op codes (60_exceptions.md R141) and the
layout row SAMPLE_WORD (30_encoding.md R73). -/

namespace Sys2Proof.Machine

/-- Op code 5: E_ILLEGAL_OP, whatever the state (60_exceptions.md R141). -/
def execIllegalOp5 (s : State) : Host.Outcome State Fault Refusal := raise .illegalOp s

/-- Op codes 6 and 7: E_ILLEGAL_OP, whatever the state (60_exceptions.md R141). -/
def execIllegalOp67 (_op : OpCode) (s : State) : Host.Outcome State Fault Refusal := raise .illegalOp s

/-- SAMPLE_WORD "is not an operation: it records the layout" of a sample word (30_encoding.md R73), so it has no step
(log 10). -/
def execSampleWord (_w : Word) (_s : State) : Host.Outcome State Fault Refusal := .refused .notAnOperation

end Sys2Proof.Machine
end

