-- ==== Sys2Proof/Machine/SampleReadout.lean ====
section
/-! DEFINITION. Sample readout: READ_SAMPLE (42_sample_readout.md). -/

namespace Sys2Proof.Machine

/-- READ_SAMPLE (42_sample_readout.md R120): the phase is checked first, then the index (60_exceptions.md R144); then the
decoded sample of `S[i]`, with its time offset. -/
def execReadSample (i : Word) (s : State) : Host.Outcome State Fault Refusal :=
  if s.cnt ≠ s.cfg.frameLen then raise .notReady s
  else if s.cfg.n ≤ i.toNat then raise .index s
  else reply (sampleResponse s (s.samples.read i.toNat) (timeOffset s.cfg.n i.toNat s.et)) s

end Sys2Proof.Machine
end

