-- ==== Sys2Proof/Machine/Dispatch.lean ====
section
/-! DEFINITION. One arm per row of the opcode table. -/

namespace Sys2Proof.Machine

def exec (i : Instr) (s : State) : Host.Outcome State Fault Refusal :=
  match i with
  | .clear => Sys2Proof.Machine.execClear s
  | .pushByte b => Sys2Proof.Machine.execPushByte b s
  | .readSample j => Sys2Proof.Machine.execReadSample j s
  | .readStatus => Sys2Proof.Machine.execReadStatus s
  | .extract w => Sys2Proof.Machine.execExtract w s
  | .illegalOp5 => Sys2Proof.Machine.execIllegalOp5 s
  | .illegalOp67 op => Sys2Proof.Machine.execIllegalOp67 op s
  | .sampleWord w => Sys2Proof.Machine.execSampleWord w s

end Sys2Proof.Machine
end

