-- ==== Sys2Proof/Machine/Step.lean ====
section
/-! DEFINITION. One step: the next input of the host, performed whole. -/

namespace Sys2Proof.Machine

/-- One transaction, or one reset, or nothing. A request is decoded and performed (30_encoding.md R60, R72); a reset
happens between transactions and returns no response (70_reset_and_hazards.md R160); with nothing pending the SDX waits
(R160, log 9). -/
def step (s : State) : Host.Outcome State Fault Refusal :=
  match s.takeInput with
  | none => .next s
  | some (.word t, s') => exec (decode t) s'
  | some (.reset draws et, s') => .next (s'.resetTo draws et)

/-- `s` with the row's word put at the head of what the host has issued, where `step` takes its next input (log 6). A
bit string that is no word of the table is not put there. -/
def State.withFetchWord (s : State) (nbits w : Nat) : State :=
  match readTableWord nbits w with
  | .ok t => s.withPending (.word t :: s.pending)
  | .error _ => s

end Sys2Proof.Machine
end

