-- ==== Sys2Proof/Machine/FrameDecode.lean ====
section
/-! DEFINITION. The pure meaning of a frame: `LE32` and `DecodeFrame` (00_scope.md R12, 42_sample_readout.md R126). -/

namespace Sys2Proof.Machine

/-- `LE32(F, p) = F[p+3] ++ F[p+2] ++ F[p+1] ++ F[p]` (00_scope.md R12), for `p + 3` within the string (log 15). -/
def le32 (f : List Byte) (p : Nat) : Word :=
  f.getD (p + 3) 0#8 ++ f.getD (p + 2) 0#8 ++ f.getD (p + 1) 0#8 ++ f.getD p 0#8

/-- A Decoded Sample with its two voltages (42_sample_readout.md R126; R121 says which response field each is). -/
structure DecodedSample where
  toff : F64
  cha : Code
  chb : Code
  va : F64
  vb : F64
deriving DecidableEq, Repr

/-- `D(i)` of a frame (42_sample_readout.md R126). -/
def decodedSample (c : Config) (f : List Byte) (i : Nat) : DecodedSample :=
  { toff := timeOffset c.n i (le32 f (4 * c.n))
    cha := chA (le32 f (4 * i))
    chb := chB (le32 f (4 * i))
    va := volts (chA (le32 f (4 * i)))
    vb := volts (chB (le32 f (4 * i))) }

/-- `DecodeFrame(F)`: the N decoded samples in index order; undefined on a byte string of another length
(42_sample_readout.md R126, log 15). -/
def decodeFrame (c : Config) (f : List Byte) : Option (List DecodedSample) :=
  if f.length = c.frameBytes then some ((List.range c.n).map (decodedSample c f)) else none

end Sys2Proof.Machine
end

