-- ==== Sys2Proof/Machine/Program.lean ====
section
/-! DEFINITION. The syntax of transaction sequences (30_encoding.md R71) and the requests each line stands for. -/

namespace Sys2Proof.Machine

/-- A line of the syntax of 30_encoding.md R71; `raw` is a request given by its two fields, as 95_test_vectors.md P3
writes an illegal one. -/
inductive Line where
  | clear
  | push (b : Byte)
  | read (i : Word)
  | status
  | extract (w : Word)
  | pushw (w : Word)
  | frame (samples : List Word) (et : Word)
  | raw (op : OpCode) (data : Word)
deriving DecidableEq, Repr

/-- The four bytes of a word in the order `PUSHW` sends them, little-endian (30_encoding.md R71, 20_memory.md R44). -/
def wordBytes (w : Word) : List Byte := [getByte w 0, getByte w 1, getByte w 2, getByte w 3]

/-- The bytes of a frame: the sample words, then the elapsed-time word (20_memory.md R43). -/
def wireBytes (samples : List Word) (et : Word) : List Byte := samples.flatMap wordBytes ++ wordBytes et

/-- `PUSH 0xNN` is `1:0x000000NN` (30_encoding.md R71). -/
def pushRequest (b : Byte) : Request := Request.make 1#3 (BitVec.setWidth 32 b)

/-- The requests of a line, in order (30_encoding.md R71). -/
def lineRequests : Line → List Request
  | .clear => [Request.make 0#3 0#32]
  | .push b => [pushRequest b]
  | .read i => [Request.make 2#3 i]
  | .status => [Request.make 3#3 0#32]
  | .extract w => [Request.make 4#3 w]
  | .pushw w => (wordBytes w).map pushRequest
  | .frame samples et => (wireBytes samples et).map pushRequest
  | .raw op data => [Request.make op data]

/-- The host's inputs for a program (30_encoding.md R71). -/
def programInputs (p : List Line) : List Input := (p.flatMap lineRequests).map fun r => .word (.request r)

end Sys2Proof.Machine
end

