-- ==== Sys2Proof/Safety.lean ====
section
/-! DEFINITION. What counts as a safe state, and the words in which claims speak of inputs, of frames and of what the host
observes. -/

namespace Sys2Proof.Machine

/-- The states an SDX can be in: `CNT` at most FRAME_LEN (10_state.md R31), and the sample store in its canonical form
over the indices 0 to N-1 (20_memory.md R40). -/
def State.Inv (s : State) : Prop := s.cnt.toNat ≤ s.cfg.frameBytes ∧ s.samples.wf s.cfg.n = true

/-- The four elements of 10_state.md R21 are the same in both states, and so is the build. -/
def SameFrameState (s t : State) : Prop :=
  t.cfg = s.cfg ∧ t.cnt = s.cnt ∧ t.acc = s.acc ∧ t.samples = s.samples ∧ t.et = s.et

/-- The operation an input asks for; a reset is none. -/
def inputInstr : Input → Option Instr
  | .word t => some (decode t)
  | .reset _ _ => none

/-- The input is a request of the port. -/
def isRequest : Input → Bool
  | .word (.request _) => true
  | .word (.sample _) => false
  | .reset _ _ => false

/-- The input is a reset, or a request for CLEAR: a frame boundary (40_frame_input.md R81, 70_reset_and_hazards.md
R161). -/
def isBoundary : Input → Bool
  | .word t => decode t == .clear
  | .reset _ _ => true

/-- The frame byte an input offers: that of a PUSH_BYTE request. -/
def offeredByte : Input → Option Byte
  | .word t =>
    match decode t with
    | .pushByte b => some b
    | _ => none
  | .reset _ _ => none

/-- The inputs that may stand between the bytes of one frame: requests for anything but CLEAR. -/
def WithinFrame (ins : List Input) : Prop := ∀ i ∈ ins, isRequest i = true ∧ isBoundary i = false

/-- The frame bytes offered by a list of inputs, in order. -/
def offeredBytes (ins : List Input) : List Byte := ins.filterMap offeredByte

/-- The run of the SDX over the inputs `ins`, one step each (70_reset_and_hazards.md R171). -/
def runInputs (ins : List Input) (s : State) : Host.Outcome State Fault Refusal :=
  Host.Core.run Sys2Proof.core ins.length (s.withPending ins)

/-- The response of a successful READ_SAMPLE that delivers a decoded sample in READY (42_sample_readout.md R120, R121). -/
def readyResponse (c : Config) (d : DecodedSample) : Response :=
  { st := .ok, rdy := true, cnt := c.frameLen, cha := d.cha, chb := d.chb, toff := d.toff, va := d.va, vb := d.vb }

end Sys2Proof.Machine
end

