-- ==== Sys2Proof/Certificates/Slice0/Obligations.lean ====
section
/-! DEFINITION. The statements about the SDX model that the provers are to settle. -/

open Sys2Proof Sys2Proof.Machine

/-! ## Requests, their encoding, and the step -/

/-- Decoding the word of a well-formed operation gives the operation back, at every operand value. -/
def Obligations.DecodeOfEncode : Prop :=
  ∀ i : Instr, i.wf = true → decode (encode i) = i

/-- Encoding the operation of a request gives the request back with its ignored bits 0 (30_encoding.md R64, R71). -/
def Obligations.EncodeOfDecodeClearsIgnoredBits : Prop :=
  ∀ r : Request, encode (decode (.request r)) = .request (r &&& usedBits r)

/-- 30_encoding.md R73: "Every request matches exactly one REQ35 row", and it is the row of the operation decoded. -/
def Obligations.EveryRequestSelectsOneRow : Prop :=
  ∀ r : Request, (requestTable.filter fun row => row.selects r).map (fun row => row.mnemonic) = [(decode (.request r)).mnemonic]

/-- 30_encoding.md R61: the two fields of a request, and the request as one number. -/
def Obligations.RequestIsOpThenData : Prop :=
  ∀ (op : OpCode) (data : Word) (r : Request),
    (Request.make op data).op = op ∧ (Request.make op data).data = data ∧
    (Request.make op data).toNat = op.toNat * 2 ^ 32 + data.toNat ∧
    Request.make r.op r.data = r

/-- 30_encoding.md R62, R64, R72: what each op code selects, the part of `DATA` it takes, and the worked encodings. -/
def Obligations.RequestUsesItsData : Prop :=
  (∀ data : Word,
    decode (.request (Request.make 0#3 data)) = .clear ∧
    decode (.request (Request.make 1#3 data)) = .pushByte (BitVec.extractLsb' 0 8 data) ∧
    decode (.request (Request.make 2#3 data)) = .readSample data ∧
    decode (.request (Request.make 3#3 data)) = .readStatus ∧
    decode (.request (Request.make 4#3 data)) = .extract data ∧
    decode (.request (Request.make 5#3 data)) = .illegalOp5 ∧
    decode (.request (Request.make 6#3 data)) = .illegalOp67 6#3 ∧
    decode (.request (Request.make 7#3 data)) = .illegalOp67 7#3) ∧
  lineRequests (.push 0x80#8) = [0x100000080#35] ∧
  lineRequests (.read 9999#32) = [0x20000270F#35] ∧
  lineRequests (.extract 0x02000A80#32) = [0x402000A80#35]

/-- Numbers written out from 30_encoding.md R61 to R66 and 95_test_vectors.md section 2.7, decoded. -/
def Obligations.SpecWordsDecode : Prop :=
  decodeTableWord 40 0x000000000 = some .clear ∧
  decodeTableWord 40 0x1000000AB = some (.pushByte 0xAB#8) ∧
  decodeTableWord 40 0x20000270F = some (.readSample 9999#32) ∧
  decodeTableWord 40 0x300000000 = some .readStatus ∧
  decodeTableWord 40 0x402000A80 = some (.extract 0x02000A80#32) ∧
  decodeTableWord 40 0x500000000 = some .illegalOp5 ∧
  decodeTableWord 40 0x612345678 = some (.illegalOp67 6#3) ∧
  decodeTableWord 40 0x7FFFFFFFF = some (.illegalOp67 7#3) ∧
  decodeTableWord 32 0x0BC60F80 = some (.sampleWord 0x0BC60F80#32)

/-- A step performs the operation whose word is next, on the state that no longer waits for it: for the encoding of every
well-formed operation, and for every request as the decoder reads it. With nothing pending a step changes nothing (the
model's choice, log 9, for the SDX that "waits for its first request", 70_reset_and_hazards.md R160). -/
def Obligations.StepPerformsDecodedRequest : Prop :=
  (∀ (i : Instr) (s : State) (rest : List Input), i.wf = true → s.pending = .word (encode i) :: rest →
    step s = exec i { s with pending := rest }) ∧
  (∀ (r : Request) (s : State) (rest : List Input), s.pending = .word (.request r) :: rest →
    step s = exec (decode (.request r)) { s with pending := rest }) ∧
  (∀ s : State, s.pending = [] → step s = .next s)

/-- 70_reset_and_hazards.md R171: every request in every state is answered by exactly one response; the SDX never faults
and never refuses one. -/
def Obligations.EveryRequestHasOneResponse : Prop :=
  ∀ (s : State) (r : Request) (rest : List Input), s.pending = .word (.request r) :: rest →
    ∃ (t : State) (resp : Response), step s = .next t ∧ t.responses = s.responses ++ [resp] ∧
      t.pending = rest ∧ t.cfg = s.cfg

/-- 00_scope.md R6, R7 and 70_reset_and_hazards.md R168: the builds there are, and FRAME_LEN in 32 bits. That N above the
range is refused as N = 0 is, is the model's reading (DEDUCED, log 2). -/
def Obligations.BuildRangeAndFrameLen : Prop :=
  (∀ n : Nat, (∃ c, Config.ofNat? n = some c ∧ c.n = n) ↔ 1 ≤ n ∧ n ≤ 1073741822) ∧
  (∀ n : Nat, Config.ofNat? n = none ↔ n = 0 ∨ 1073741822 < n) ∧
  (∀ c : Config, c.frameLen.toNat = 4 * c.n + 4) ∧
  Config.reference.n = 10000 ∧ Config.reference.frameLen = 40004#32

/-! ## Frame input -/

/-- 40_frame_input.md R81: CLEAR, whatever `DATA` and whatever the state, with its corner cases. -/
def Obligations.ClearStartsNewFrame : Prop :=
  (∀ s : State, exec .clear s = .next
    { s with cnt := 0#32, acc := 0#32,
             responses := s.responses ++ [{ st := .ok, rdy := false, cnt := 0#32, cha := 0#6, chb := 0#6, toff := 0#64, va := 0#64, vb := 0#64 }] }) ∧
  (∀ (s : State) (data : Word) (rest : List Input), s.pending = .word (.request (Request.make 0#3 data)) :: rest →
    ∃ t, step s = .next t ∧ exec .clear { s with pending := rest } = .next t ∧
      t.rdy = false ∧ t.phase = .recv ∧
      (∀ draws et, t.cnt = (s.resetTo draws et).cnt ∧ t.acc = (s.resetTo draws et).acc)) ∧
  (∀ (s : State) (data : Word) (ins : List Input) (i : Word), WithinFrame ins →
    (offeredBytes ins).length < s.cfg.frameBytes →
    ∃ t, runInputs (.word (.request (Request.make 0#3 data)) :: ins) s = .next t ∧
      exec (.readSample i) t = .next { t with responses := t.responses ++ [{ st := .notReady }] })

/-- 40_frame_input.md R83: PUSH_BYTE, whatever `DATA[31:8]`. Below FRAME_LEN the byte goes to its lane of `ACC`, the fourth
byte of a word commits it to `S[k]` or to `ET`, and every other byte of `ACC` and every other word stays. In READY the
request is E_OVERRUN with no effect. Four bytes from a word boundary commit those four, whatever `ACC` held. -/
def Obligations.PushByteAssemblesWords : Prop :=
  (∀ (s : State) (data : Word) (rest : List Input), s.pending = .word (.request (Request.make 1#3 data)) :: rest →
    step s = exec (.pushByte (BitVec.extractLsb' 0 8 data)) { s with pending := rest }) ∧
  (∀ (s : State) (b : Byte), s.samples.wf s.cfg.n = true → s.cnt.toNat < s.cfg.frameBytes →
    ∃ t, exec (.pushByte b) s = .next t ∧
      t.cnt.toNat = s.cnt.toNat + 1 ∧
      getByte t.acc (s.cnt.toNat % 4) = b ∧
      (∀ j < 4, j ≠ s.cnt.toNat % 4 → getByte t.acc j = getByte s.acc j) ∧
      (∀ a, ¬ (s.cnt.toNat % 4 = 3 ∧ a = s.cnt.toNat / 4 ∧ a < s.cfg.n) → t.samples.read a = s.samples.read a) ∧
      (s.cnt.toNat % 4 = 3 → s.cnt.toNat / 4 < s.cfg.n → t.samples.read (s.cnt.toNat / 4) = t.acc ∧ t.et = s.et) ∧
      (s.cnt.toNat % 4 = 3 → s.cnt.toNat / 4 = s.cfg.n → t.samples = s.samples ∧ t.et = t.acc) ∧
      (s.cnt.toNat % 4 ≠ 3 → t.samples = s.samples ∧ t.et = s.et) ∧
      t.cfg = s.cfg ∧ t.pending = s.pending ∧
      t.rdy = decide (s.cnt.toNat + 1 = s.cfg.frameBytes) ∧
      t.responses = s.responses ++
        [{ st := .ok, rdy := decide (s.cnt.toNat + 1 = s.cfg.frameBytes), cnt := t.cnt, cha := 0#6, chb := 0#6, toff := 0#64, va := 0#64, vb := 0#64 }]) ∧
  (∀ (s : State) (b : Byte), s.cnt = s.cfg.frameLen →
    exec (.pushByte b) s = .next { s with responses := s.responses ++ [{ st := .overrun }] }) ∧
  (∀ (s : State) (b0 b1 b2 b3 : Byte), s.samples.wf s.cfg.n = true → s.cnt.toNat < s.cfg.frameBytes → s.cnt.toNat % 4 = 0 →
    ∃ t, runInputs (programInputs [.push b0, .push b1, .push b2, .push b3]) s = .next t ∧
      t.cnt.toNat = s.cnt.toNat + 4 ∧
      (s.cnt.toNat / 4 < s.cfg.n → t.samples.read (s.cnt.toNat / 4) = b3 ++ b2 ++ b1 ++ b0) ∧
      (s.cnt.toNat / 4 = s.cfg.n → t.et = b3 ++ b2 ++ b1 ++ b0 ∧ t.phase = .ready))

/-- 60_exceptions.md R142: a PUSH_BYTE in READY is E_OVERRUN (`st = 3`), and READ_SAMPLE answers after it what it
answered before. -/
def Obligations.OverrunKeepsTheFrame : Prop :=
  ∀ (s : State) (b : Byte), s.phase = .ready →
    ∃ t, exec (.pushByte b) s = .next t ∧
      t = { s with responses := s.responses ++ [{ st := .overrun }] } ∧ Status.overrun.code = 3#3 ∧
      (∀ i : Word, i.toNat < s.cfg.n →
        ∃ resp, resp.st = .ok ∧
          exec (.readSample i) s = .next { s with responses := s.responses ++ [resp] } ∧
          exec (.readSample i) t = .next { t with responses := t.responses ++ [resp] })

/-- 40_frame_input.md R85: READ_STATUS, whatever `DATA` and whatever the state, with its corner cases. -/
def Obligations.ReadStatusReportsProgress : Prop :=
  (∀ s : State, exec .readStatus s = .next
    { s with responses := s.responses ++ [{ st := .ok, rdy := decide (s.cnt = s.cfg.frameLen), cnt := s.cnt, cha := 0#6, chb := 0#6, toff := 0#64, va := 0#64, vb := 0#64 }] }) ∧
  (∀ (s : State) (data : Word) (rest : List Input), s.pending = .word (.request (Request.make 3#3 data)) :: rest →
    step s = exec .readStatus { s with pending := rest }) ∧
  (∀ (c : Config), exec .readStatus (State.powerOn c) = .next
    { State.powerOn c with responses := [{ st := .ok, rdy := false, cnt := 0#32 }] }) ∧
  (∀ s : State, s.phase = .ready → exec .readStatus s = .next
    { s with responses := s.responses ++ [{ st := .ok, rdy := true, cnt := s.cfg.frameLen }] }) ∧
  (∀ (s t : State) (resp : Response), exec .readStatus s = .next { s with responses := s.responses ++ [resp] } →
    t = { s with responses := s.responses ++ [resp] } →
    exec .readStatus t = .next { t with responses := t.responses ++ [resp] })

/-- 10_state.md R22: who changes `CNT` and how. -/
def Obligations.OnlyPushAndBoundariesChangeCount : Prop :=
  ∀ (s t : State), s.Inv → step s = .next t →
    t.cnt.toNat ≤ s.cfg.frameBytes ∧
    (s.pending = [] → t.cnt = s.cnt) ∧
    (∀ i rest, s.pending = i :: rest →
      (isBoundary i = true → t.cnt = 0#32) ∧
      (∀ b, offeredByte i = some b → s.cnt ≠ s.cfg.frameLen → t.cnt.toNat = s.cnt.toNat + 1) ∧
      (∀ b, offeredByte i = some b → s.cnt = s.cfg.frameLen → t.cnt = s.cnt) ∧
      (isBoundary i = false → offeredByte i = none → t.cnt = s.cnt))

/-- 10_state.md R31: `0 <= CNT <= FRAME_LEN` in every state reached from power-on, whatever the host does. -/
def Obligations.CountNeverExceedsFrameLen : Prop :=
  ∀ (c : Config) (ins : List Input) (k : Nat) (t : State),
    Host.Core.run Sys2Proof.core k { State.powerOn c with pending := ins } = .next t → t.cnt.toNat ≤ 4 * c.n + 4

/-- 40_frame_input.md R86: a frame ends with its FRAME_LEN-th byte and not before. Whatever requests but CLEAR a host
makes, too few bytes leave the SDX in RECV with no output, and with no byte at all nothing of the frame changes. -/
def Obligations.FrameEndsWithItsLastByte : Prop :=
  ∀ (s : State) (ins : List Input), s.cnt.toNat ≤ s.cfg.frameBytes → WithinFrame ins →
    ∃ t, runInputs ins s = .next t ∧
      (s.cnt.toNat + (offeredBytes ins).length < s.cfg.frameBytes →
        t.phase = .recv ∧ t.cnt.toNat = s.cnt.toNat + (offeredBytes ins).length ∧
        (∀ i : Word, exec (.readSample i) t = .next { t with responses := t.responses ++ [{ st := .notReady }] })) ∧
      (s.cfg.frameBytes ≤ s.cnt.toNat + (offeredBytes ins).length → t.phase = .ready) ∧
      (offeredBytes ins = [] → SameFrameState s t)

/-! ## Field extraction and scaling -/

/-- 41_field_extract.md R101, R102 and 30_encoding.md R67: the two channel codes by the document's shift formulas, and as
numbers. -/
def Obligations.ChannelCodesOfWord : Prop :=
  ∀ w : Word,
    chA w = (BitVec.setWidth 6 (BitVec.extractLsb' 7 5 w) ||| (BitVec.setWidth 6 (BitVec.extractLsb' 25 1 w) <<< 5)) ∧
    chB w = (BitVec.setWidth 6 (BitVec.extractLsb' 17 2 w) ||| (BitVec.setWidth 6 (BitVec.extractLsb' 22 3 w) <<< 2)
      ||| (BitVec.setWidth 6 (BitVec.extractLsb' 27 1 w) <<< 5)) ∧
    (chA w).toNat = w.toNat / 2 ^ 7 % 32 + 32 * (w.toNat / 2 ^ 25 % 2) ∧
    (chB w).toNat = w.toNat / 2 ^ 17 % 4 + 4 * (w.toNat / 2 ^ 22 % 8) + 32 * (w.toNat / 2 ^ 27 % 2)

/-- 41_field_extract.md R103: which bits the channel codes depend on, and that they take every value. -/
def Obligations.ChannelCodesDependOnTheirMasks : Prop :=
  (∀ w : Word, chA w = chA (w &&& 0x02000F80#32) ∧ chB w = chB (w &&& 0x09C60000#32)) ∧
  (∀ w v : Word, chA (w ^^^ (v &&& 0xF439F07F#32)) = chA w ∧ chB (w ^^^ (v &&& 0xF439F07F#32)) = chB w) ∧
  (∀ w v : Word, chA (w ^^^ (v &&& 0x09C60000#32)) = chA w ∧ chB (w ^^^ (v &&& 0x02000F80#32)) = chB w) ∧
  (∀ a : Code, (∃ w, chA w = a) ∧ ∃ w, chB w = a) ∧
  chA 0#32 = 0#6 ∧ chB 0#32 = 0#6 ∧ chA 0xFFFFFFFF#32 = 63#6 ∧ chB 0xFFFFFFFF#32 = 63#6

/-- 41_field_extract.md R104: `Enc` puts the code bits where the layout of 30_encoding.md R66 has them and 0 elsewhere,
and it and the channel functions invert each other. -/
def Obligations.EncInvertsChannelCodes : Prop :=
  (∀ a b : Code, encodeCodes a b =
    0#4 ++ BitVec.extractLsb' 5 1 b ++ 0#1 ++ BitVec.extractLsb' 5 1 a ++ BitVec.extractLsb' 2 3 b ++ 0#3 ++
      BitVec.extractLsb' 0 2 b ++ 0#5 ++ BitVec.extractLsb' 0 5 a ++ 0#7) ∧
  (∀ a b : Code, chA (encodeCodes a b) = a ∧ chB (encodeCodes a b) = b) ∧
  (∀ w : Word, encodeCodes (chA w) (chB w) = w &&& 0x0BC60F80#32)

/-- 41_field_extract.md R106, with the bit pattern of `K` from R105. Patterns of non-negative binary64 values are ordered
as the values are. -/
def Obligations.VoltsLaws : Prop :=
  voltsPerStep = 0x3FB4514514514514#64 ∧
  volts 0#6 = 0#64 ∧ volts 63#6 = 0x4014000000000000#64 ∧
  (∀ v u : Code, v.toNat ≤ u.toNat → (volts v).toNat ≤ (volts u).toNat) ∧
  (∀ v : Code, f64Sign (volts v) = false ∧ f64IsFinite (volts v) = true ∧ (volts v).toNat ≤ 0x4014000000000000 ∧
    (v ≠ 0#6 → 1 ≤ f64Exponent (volts v))) ∧
  volts 21#6 = 0x3FFAAAAAAAAAAAAA#64 ∧ fdiv (f64 105) (f64 63) = 0x3FFAAAAAAAAAAAAB#64 ∧
  volts 62#6 = 0x4013AEBAEBAEBAEB#64 ∧ fdiv (f64 310) (f64 63) = 0x4013AEBAEBAEBAEC#64

/-- 41_field_extract.md R100: EXTRACT, for every word and in every state, with its corner cases and its example. -/
def Obligations.ExtractDecodesItsWord : Prop :=
  (∀ (s : State) (w : Word), exec (.extract w) s = .next
    { s with responses := s.responses ++
      [{ st := .ok, rdy := decide (s.cnt = s.cfg.frameLen), cnt := s.cnt, cha := chA w, chb := chB w, toff := 0#64, va := volts (chA w), vb := volts (chB w) }] }) ∧
  (∀ (s : State) (w : Word) (rest : List Input), s.pending = .word (.request (Request.make 4#3 w)) :: rest →
    step s = exec (.extract w) { s with pending := rest }) ∧
  (∀ (s : State) (w : Word), w &&& 0x02000F80#32 = 0#32 → w &&& 0x09C60000#32 = 0#32 → exec (.extract w) s = .next
    { s with responses := s.responses ++ [{ st := .ok, rdy := s.rdy, cnt := s.cnt }] }) ∧
  (∀ s : State, exec (.extract 0xFFFFFFFF#32) s = .next
    { s with responses := s.responses ++ [{ st := .ok, rdy := s.rdy, cnt := s.cnt, cha := 63#6, chb := 63#6, va := 0x4014000000000000#64, vb := 0x4014000000000000#64 }] }) ∧
  (∀ (s : State) (w : Word), w &&& ~~~0x09C60000#32 = 0#32 → exec (.extract w) s = .next
    { s with responses := s.responses ++ [{ st := .ok, rdy := s.rdy, cnt := s.cnt, cha := 0#6, chb := chB w, vb := volts (chB w) }] }) ∧
  (∀ s : State, exec (.extract 0x02000A80#32) s = .next
    { s with responses := s.responses ++ [{ st := .ok, rdy := s.rdy, cnt := s.cnt, cha := 53#6, chb := 0#6, va := 0x4010D34D34D34D35#64 }] })

/-! ## Binary64 -/

/-- 00_scope.md R11: `f64(n)` is the exact binary64 value of the integer, below `2^53`. -/
def Obligations.IntegersConvertExactly : Prop :=
  ∀ n : Nat, n < 2 ^ 53 → f64IsFinite (f64 n) = true ∧ f64Sign (f64 n) = false ∧ f64ToRat (f64 n) = (n : Rat)

/-- 00_scope.md R9, 41_field_extract.md R108: the quotient of finite non-negative values is rounded to nearest, ties to
even: no finite value lies nearer the exact quotient, and one that lies as near has an odd significand. -/
def Obligations.DivisionRoundsToNearestEven : Prop :=
  ∀ x y z : F64, f64IsFinite x = true → f64Sign x = false → f64IsFinite y = true → f64Sign y = false → f64IsZero y = false →
    f64IsFinite (fdiv x y) = true → f64IsFinite z = true → f64Sign z = false → z ≠ fdiv x y →
    |f64ToRat x / f64ToRat y - f64ToRat (fdiv x y)| ≤ |f64ToRat x / f64ToRat y - f64ToRat z| ∧
    (|f64ToRat x / f64ToRat y - f64ToRat (fdiv x y)| = |f64ToRat x / f64ToRat y - f64ToRat z| →
      (fdiv x y).getLsbD 0 = false ∧ z.getLsbD 0 = true)

/-- 00_scope.md R9, 41_field_extract.md R108: the product of finite non-negative values is rounded to nearest, ties to
even. -/
def Obligations.ProductRoundsToNearestEven : Prop :=
  ∀ x y z : F64, f64IsFinite x = true → f64Sign x = false → f64IsFinite y = true → f64Sign y = false →
    f64IsFinite (fmul x y) = true → f64IsFinite z = true → f64Sign z = false → z ≠ fmul x y →
    |f64ToRat x * f64ToRat y - f64ToRat (fmul x y)| ≤ |f64ToRat x * f64ToRat y - f64ToRat z| ∧
    (|f64ToRat x * f64ToRat y - f64ToRat (fmul x y)| = |f64ToRat x * f64ToRat y - f64ToRat z| →
      (fmul x y).getLsbD 0 = false ∧ z.getLsbD 0 = true)

/-- 42_sample_readout.md R123: the laws of TimeOffset, over every build, elapsed time and pair of indices. -/
def Obligations.TimeOffsetLaws : Prop :=
  (∀ (c : Config) (et : Word), timeOffset c.n 0 et = 0#64) ∧
  (∀ (c : Config) (i : Nat), i < c.n → timeOffset c.n i 0#32 = 0#64) ∧
  (∀ (c : Config) (et : Word) (i : Nat), i < c.n → et.toNat = c.n →
    nsPerSample c.n et = 0x3FF0000000000000#64 ∧ timeOffset c.n i et = f64 i) ∧
  (∀ (c : Config) (et : Word) (i j : Nat), i ≤ j → j < c.n → (timeOffset c.n i et).toNat ≤ (timeOffset c.n j et).toNat) ∧
  (∀ (c : Config) (et : Word) (i : Nat), i < c.n →
    f64Sign (timeOffset c.n i et) = false ∧ f64IsFinite (timeOffset c.n i et) = true) ∧
  timeOffset 10000 5 12345#32 = 0x4018B0A3D70A3D70#64 ∧ fdiv (f64 (5 * 12345)) (f64 10000) ≠ 0x4018B0A3D70A3D70#64

/-- 41_field_extract.md R108: every result of the SDX's arithmetic is a finite, non-negative value, `+0.0` or normal, and a
non-zero one is at least the smallest voltage or the smallest quotient. -/
def Obligations.ArithmeticStaysNormal : Prop :=
  ∀ (c : Config) (et : Word) (i : Nat) (v : Code), i < c.n →
    (volts v = 0#64 ∨ voltsPerStep.toNat ≤ (volts v).toNat ∧ (volts v).toNat < 0x7FF0000000000000) ∧
    (nsPerSample c.n et = 0#64 ∨
      (fdiv (f64 1) (f64 1073741822)).toNat ≤ (nsPerSample c.n et).toNat ∧ (nsPerSample c.n et).toNat < 0x7FF0000000000000) ∧
    (timeOffset c.n i et = 0#64 ∨
      (fdiv (f64 1) (f64 1073741822)).toNat ≤ (timeOffset c.n i et).toNat ∧ (timeOffset c.n i et).toNat < 0x7FF0000000000000) ∧
    1 ≤ f64Exponent voltsPerStep ∧ 1 ≤ f64Exponent (fdiv (f64 1) (f64 1073741822))

/-! ## Sample readout -/

/-- 42_sample_readout.md R120, R121: READ_SAMPLE: E_NOT_READY before E_INDEX, and in READY the decoded sample, with its
corner cases. No form changes the frame state. -/
def Obligations.ReadSampleDeliversDecodedSample : Prop :=
  (∀ (s : State) (i : Word) (rest : List Input), s.pending = .word (.request (Request.make 2#3 i)) :: rest →
    step s = exec (.readSample i) { s with pending := rest }) ∧
  (∀ (s : State) (i : Word), s.cnt ≠ s.cfg.frameLen →
    exec (.readSample i) s = .next { s with responses := s.responses ++ [{ st := .notReady }] }) ∧
  (∀ (s : State) (i : Word), s.cnt = s.cfg.frameLen → s.cfg.n ≤ i.toNat →
    exec (.readSample i) s = .next { s with responses := s.responses ++ [{ st := .index }] }) ∧
  (∀ (s : State) (i : Word), s.cnt = s.cfg.frameLen → i.toNat < s.cfg.n →
    exec (.readSample i) s = .next
      { s with responses := s.responses ++
        [{ st := .ok, rdy := true, cnt := s.cfg.frameLen,
           cha := chA (s.samples.read i.toNat), chb := chB (s.samples.read i.toNat),
           toff := fmul (f64 i.toNat) (fdiv (f64 s.et.toNat) (f64 s.cfg.n)),
           va := fmul (f64 (chA (s.samples.read i.toNat)).toNat) (fdiv (f64 5) (f64 63)),
           vb := fmul (f64 (chB (s.samples.read i.toNat)).toNat) (fdiv (f64 5) (f64 63)) }] }) ∧
  (∀ (s : State) (i : Word), s.cnt = s.cfg.frameLen → i.toNat < s.cfg.n → i = 0#32 ∨ s.et = 0#32 →
    ∃ resp, resp.st = .ok ∧ resp.toff = 0#64 ∧ exec (.readSample i) s = .next { s with responses := s.responses ++ [resp] })

/-- 20_memory.md R47: READ_SAMPLE, READ_STATUS and EXTRACT have no side effect and repeat with the same response; nor do
illegal requests (60_exceptions.md R143). -/
def Obligations.ReadsAndIllegalRequestsChangeNothing : Prop :=
  ∀ (s : State) (i : Instr), (∃ j, i = .readSample j) ∨ i = .readStatus ∨ (∃ w, i = .extract w) ∨ i = .illegalOp5 ∨ (∃ op, i = .illegalOp67 op) →
    ∃ resp, exec i s = .next { s with responses := s.responses ++ [resp] } ∧
      exec i { s with responses := s.responses ++ [resp] } = .next { s with responses := s.responses ++ [resp] ++ [resp] }

/-- 20_memory.md R47: no output depends on the bits of a stored word outside the five fields: two stores that agree on the
12 bits give the same response. -/
def Obligations.OnlyFieldBitsOfStoreObservable : Prop :=
  ∀ (s t : State) (i : Word), t.cfg = s.cfg → t.cnt = s.cnt → t.et = s.et →
    (∀ k, k < s.cfg.n → s.samples.read k &&& 0x0BC60F80#32 = t.samples.read k &&& 0x0BC60F80#32) →
    ∃ resp, exec (.readSample i) s = .next { s with responses := s.responses ++ [resp] } ∧
      exec (.readSample i) t = .next { t with responses := t.responses ++ [resp] }

/-- 20_memory.md R44 and 30_encoding.md R71: the bytes of a frame are little-endian and positional, and FRAME pushes exactly
those bytes in order. -/
def Obligations.FrameLineIsLittleEndian : Prop :=
  ∀ (ws : List Word) (et : Word),
    (wireBytes ws et).length = 4 * ws.length + 4 ∧
    (∀ k w, ws[k]? = some w → le32 (wireBytes ws et) (4 * k) = w ∧
      ∀ j < 4, (wireBytes ws et)[4 * k + j]? = some (BitVec.extractLsb' (8 * j) 8 w)) ∧
    le32 (wireBytes ws et) (4 * ws.length) = et ∧
    offeredBytes (programInputs [.frame ws et]) = wireBytes ws et ∧
    WithinFrame (programInputs [.frame ws et])

/-! ## Errors and reserved codes -/

/-- 60_exceptions.md R140, R144: the status of every request, by its first cause, the code of each, and that a request
with another status than OK changes nothing of the frame state. -/
def Obligations.StatusOfEveryRequest : Prop :=
  (∀ (s : State) (r : Request) (rest : List Input), s.cnt.toNat ≤ s.cfg.frameBytes → s.pending = .word (.request r) :: rest →
    ∃ t resp, step s = .next t ∧ t.responses = s.responses ++ [resp] ∧
      resp.st =
        (if 5 ≤ r.op.toNat then .illegalOp
         else if r.op = 2#3 ∧ s.cnt.toNat < 4 * s.cfg.n + 4 then .notReady
         else if r.op = 2#3 ∧ s.cfg.n ≤ r.data.toNat then .index
         else if r.op = 1#3 ∧ s.cnt.toNat = 4 * s.cfg.n + 4 then .overrun
         else .ok) ∧
      (resp.st ≠ .ok → SameFrameState s t)) ∧
  Status.ok.code = 0#3 ∧ Status.notReady.code = 1#3 ∧ Status.index.code = 2#3 ∧ Status.overrun.code = 3#3 ∧
  Status.illegalOp.code = 4#3 ∧ (∀ st : Status, st.code ≠ 5#3 ∧ st.code ≠ 6#3 ∧ st.code ≠ 7#3)

/-- 60_exceptions.md R143: an error response has no field but `st`, leaves the whole frame state as it was, and what
follows is performed as if the failed request had not been issued. -/
def Obligations.ErrorIsLocalAndForgotten : Prop :=
  ∀ (s t : State) (r : Request) (rest : List Input) (resp : Response), s.pending = .word (.request r) :: rest →
    step s = .next t → t.responses = s.responses ++ [resp] → resp.st ≠ .ok →
    resp.rdy = false ∧ resp.cnt = 0#32 ∧ resp.cha = 0#6 ∧ resp.chb = 0#6 ∧ resp.toff = 0#64 ∧ resp.va = 0#64 ∧ resp.vb = 0#64 ∧
    SameFrameState s t ∧ t.pending = rest ∧
    (∀ (k : Nat) (u : State), Host.Core.run Sys2Proof.core k { s with pending := rest } = .next u →
      ∃ v out, Host.Core.run Sys2Proof.core k t = .next v ∧ SameFrameState u v ∧ v.pending = u.pending ∧
        u.responses = s.responses ++ out ∧ v.responses = s.responses ++ [resp] ++ out)

/-- 60_exceptions.md R141: op codes 5, 6 and 7, whatever `DATA` and whatever the state: E_ILLEGAL_OP, nothing changed, and a
later READ_STATUS reports `CNT` as before. -/
def Obligations.IllegalOpCodesRejected : Prop :=
  (∀ s : State, exec .illegalOp5 s = .next { s with responses := s.responses ++ [{ st := .illegalOp, rdy := false, cnt := 0#32, cha := 0#6, chb := 0#6, toff := 0#64, va := 0#64, vb := 0#64 }] }) ∧
  (∀ (op : OpCode) (s : State), exec (.illegalOp67 op) s = .next { s with responses := s.responses ++ [{ st := .illegalOp, rdy := false, cnt := 0#32, cha := 0#6, chb := 0#6, toff := 0#64, va := 0#64, vb := 0#64 }] }) ∧
  (∀ (s : State) (op : OpCode) (data : Word) (rest : List Input), 5 ≤ op.toNat → s.pending = .word (.request (Request.make op data)) :: rest →
    ∃ t, step s = .next t ∧ t = { s with pending := rest, responses := s.responses ++ [{ st := .illegalOp }] } ∧
      exec .readStatus t = .next { t with responses := t.responses ++ [{ st := .ok, rdy := s.rdy, cnt := s.cnt }] }) ∧
  Status.illegalOp.code = 4#3

/-- 30_encoding.md R73: the row SAMPLE_WORD "is not an operation". No request decodes to it, and the model stops on it by
name (the model's choice, log 10). -/
def Obligations.SampleWordIsNoOperation : Prop :=
  (∀ (w : Word) (s : State), exec (.sampleWord w) s = .refused .notAnOperation) ∧
  (∀ (w : Word) (r : Request), decode (.request r) ≠ .sampleWord w)

/-! ## Reset -/

/-- 10_state.md R34 and 70_reset_and_hazards.md R160: reset, at power-on and as an event between transactions. Every
contents of `S` and every `ET` may follow an event, which carries them as its draws (log 5). -/
def Obligations.ResetLeavesStatedValues : Prop :=
  (∀ c : Config, (State.powerOn c).cnt = 0#32 ∧ (State.powerOn c).acc = 0#32 ∧ (State.powerOn c).rdy = false ∧ (State.powerOn c).phase = .recv) ∧
  (∀ (s : State) (draws : List Word) (et : Word) (rest : List Input), s.pending = .reset draws et :: rest →
    ∃ t, step s = .next t ∧ t.cnt = 0#32 ∧ t.acc = 0#32 ∧ t.rdy = false ∧ t.phase = .recv ∧
      (∀ k w, k < s.cfg.n → draws[k]? = some w → t.samples.read k = w) ∧ t.et = et ∧
      t.responses = s.responses ∧ t.pending = rest ∧ t.cfg = s.cfg)

/-- 10_state.md R35: what reset leaves in `S` and `ET` is never observed: whatever the two draws and whatever the host does
after them, the responses are the same. -/
def Obligations.ResetContentsNeverObserved : Prop :=
  ∀ (s t : State) (d e : List Word) (x y : Word) (ins : List Input) (k : Nat),
    Host.Core.run Sys2Proof.core k { s with pending := .reset d x :: ins } = .next t →
    ∃ u, Host.Core.run Sys2Proof.core k { s with pending := .reset e y :: ins } = .next u ∧
      u.responses = t.responses ∧ u.cnt = t.cnt ∧ u.acc = t.acc ∧ u.rdy = t.rdy

/-- 70_reset_and_hazards.md R161: after a CLEAR and after a reset the host sees the same: the responses that follow agree;
CLEAR returned one of its own, and left `S` and `ET` as they were, whereas any contents may follow a reset. -/
def Obligations.ClearAndResetLookAlike : Prop :=
  (∀ (s t : State) (d : List Word) (x data : Word) (ins : List Input) (k : Nat), s.samples.wf s.cfg.n = true →
    Host.Core.run Sys2Proof.core (k + 1) { s with pending := .reset d x :: ins } = .next t →
    ∃ u out, Host.Core.run Sys2Proof.core (k + 1) { s with pending := .word (.request (Request.make 0#3 data)) :: ins } = .next u ∧
      t.responses = s.responses ++ out ∧ u.responses = s.responses ++ [{ st := .ok, rdy := false, cnt := 0#32 }] ++ out ∧
      u.cnt = t.cnt ∧ u.acc = t.acc) ∧
  (∀ s t : State, exec .clear s = .next t → t.samples = s.samples ∧ t.et = s.et) ∧
  (∀ (s : State) (draws : List Word) (et : Word) (rest : List Input), s.pending = .reset draws et :: rest →
    ∃ t, step s = .next t ∧ t.responses = s.responses ∧ t.et = et ∧
      (∀ k w, k < s.cfg.n → draws[k]? = some w → t.samples.read k = w))

/-! ## Whole-machine invariants and frames -/

/-- Every step keeps `CNT` at most FRAME_LEN (10_state.md R31) and the sample store in its canonical form over the indices
0 to N-1 (20_memory.md R40), and no step changes the build. -/
def Obligations.StepKeepsInvariant : Prop :=
  ∀ s t : State, s.Inv → step s = .next t → t.Inv ∧ t.cfg = s.cfg

/-- The state at power-on, and so `State.reset`, meets the invariant. -/
def Obligations.PowerOnMeetsInvariant : Prop :=
  (∀ c : Config, (State.powerOn c).Inv) ∧ State.reset.Inv

/-- Equal stores are equal data: two canonical stores of the same size that read alike at every index are one list. -/
def Obligations.CanonicalStoresAreExtensional : Prop :=
  ∀ (n : Nat) (m m' : Memory), m.wf n = true → m'.wf n = true → (∀ k, m.read k = m'.read k) → m = m'

/-- 10_state.md R32 and 40_frame_input.md R82: from any state, after a CLEAR or a reset and any requests but CLEAR, the
first FRAME_LEN bytes offered are the bytes accepted, and they determine `CNT`, the committed words, `ET` and the bytes of
`ACC`. -/
def Obligations.AcceptedBytesDetermineState : Prop :=
  ∀ (s : State) (first : Input) (ins : List Input), s.samples.wf s.cfg.n = true → isBoundary first = true → WithinFrame ins →
    ∃ t, runInputs (first :: ins) s = .next t ∧
      let f := (offeredBytes ins).take s.cfg.frameBytes
      t.cfg = s.cfg ∧ t.cnt.toNat = f.length ∧
      (∀ k, k < s.cfg.n → 4 * k + 3 < f.length → t.samples.read k = le32 f (4 * k)) ∧
      (f.length = s.cfg.frameBytes → t.phase = .ready ∧ t.et = le32 f (4 * s.cfg.n)) ∧
      (f.length < s.cfg.frameBytes → t.phase = .recv) ∧
      (∀ j, j < f.length % 4 → f[4 * (f.length / 4) + j]? = some (getByte t.acc j))

/-- 42_sample_readout.md R127: the receiver agrees with DecodeFrame, from any state, after a CLEAR or a reset and the bytes
of a frame with any other requests between them. -/
def Obligations.ReceiverAgreesWithDecodeFrame : Prop :=
  ∀ (s : State) (first : Input) (ins : List Input) (f : List Byte), s.samples.wf s.cfg.n = true →
    isBoundary first = true → WithinFrame ins → offeredBytes ins = f → f.length = s.cfg.frameBytes →
    ∃ t samples, runInputs (first :: ins) s = .next t ∧ t.phase = .ready ∧ decodeFrame s.cfg f = some samples ∧
      samples.length = s.cfg.n ∧
      ∀ (i : Word) (d : DecodedSample), samples[i.toNat]? = some d →
        exec (.readSample i) t = .next { t with responses := t.responses ++ [readyResponse s.cfg d] }

/-- 42_sample_readout.md R128: a held frame is read in any order, any number of times, with nothing dropped or reordered,
and no request but CLEAR ends READY. -/
def Obligations.ReadoutIsRestartable : Prop :=
  (∀ (s : State) (ins : List Input), s.phase = .ready → WithinFrame ins →
    ∃ t, runInputs ins s = .next t ∧ SameFrameState s t ∧ t.phase = .ready) ∧
  (∀ (s t : State) (first : Input) (ins : List Input) (indices : List Word), s.samples.wf s.cfg.n = true →
    isBoundary first = true → WithinFrame ins → (offeredBytes ins).length = s.cfg.frameBytes →
    runInputs (first :: ins) s = .next t → (∀ i ∈ indices, i.toNat < s.cfg.n) →
    ∃ u, runInputs (programInputs (indices.map .read)) t = .next u ∧ SameFrameState t u ∧
      u.responses = t.responses ++ indices.map fun i => readyResponse s.cfg (decodedSample s.cfg (offeredBytes ins) i.toNat))

/-- The document's round-trip property (41_field_extract.md R104): a frame of N words that carry given codes, sent after a
CLEAR, is read back with exactly those codes. -/
def Obligations.SyntheticFrameRoundTrip : Prop :=
  ∀ (s : State) (codes : List (Code × Code)) (et : Word), s.samples.wf s.cfg.n = true → codes.length = s.cfg.n →
    ∃ t, runInputs (programInputs [.clear, .frame (codes.map fun p => encodeCodes p.1 p.2) et]) s = .next t ∧
      ∀ (i : Word) (a b : Code), codes[i.toNat]? = some (a, b) →
        ∃ resp, exec (.readSample i) t = .next { t with responses := t.responses ++ [resp] } ∧
          resp.st = .ok ∧ resp.cha = a ∧ resp.chb = b ∧ resp.va = volts a ∧ resp.vb = volts b ∧
          resp.toff = timeOffset s.cfg.n i.toNat et
end

