-- ==== Sys2Proof/Laws/Bits.lean ====
section
/-! SUPPORT. Bit by bit: requests, channel codes, and the bytes of a word. -/

namespace Sys2Proof

/-- The bits of a request: `DATA` below bit 32, `OP` from there (30_encoding.md R61). -/
theorem Request.getLsbD_make (op : OpCode) (data : Word) (i : Nat) :
    (Request.make op data).getLsbD i = if i < 32 then data.getLsbD i else op.getLsbD (i - 32) := by
  unfold Request.make
  exact (BitVec.getLsbD_append (x := op) (y := data)).trans (by split <;> simp_all)

theorem Request.getLsbD_op (r : Request) (i : Nat) : r.op.getLsbD i = (decide (i < 3) && r.getLsbD (32 + i)) := by
  simp [Request.op, BitVec.getLsbD_extractLsb']

theorem Request.getLsbD_data (r : Request) (i : Nat) : r.data.getLsbD i = (decide (i < 32) && r.getLsbD i) := by
  simp [Request.data, BitVec.getLsbD_extractLsb']

namespace Machine

/-- The bits of a channel A code (41_field_extract.md R101). -/
theorem getLsbD_chA (w : Word) (i : Nat) :
    (chA w).getLsbD i = if i < 5 then w.getLsbD (7 + i) else (decide (i = 5) && w.getLsbD 25) := by
  unfold chA
  refine (BitVec.getLsbD_append (x := fieldAHi w) (y := fieldALo w)).trans ?_
  split
  · simp [fieldALo, *]
  · by_cases h : i = 5
    · simp [fieldAHi, h]
    · have : ¬ i - 5 < 1 := by omega
      simp [fieldAHi, h, this]

/-- The bits of a channel B code (41_field_extract.md R102). -/
theorem getLsbD_chB (w : Word) (i : Nat) :
    (chB w).getLsbD i =
      if i < 2 then w.getLsbD (17 + i)
      else if i < 5 then w.getLsbD (20 + i) else (decide (i = 5) && w.getLsbD 27) := by
  unfold chB
  refine (BitVec.getLsbD_append (x := fieldBHi w ++ fieldBMid w) (y := fieldBLo w)).trans ?_
  split
  · simp [fieldBLo, *]
  · refine (BitVec.getLsbD_append (x := fieldBHi w) (y := fieldBMid w)).trans ?_
    by_cases h : i < 5
    · rw [if_pos (by omega), if_pos h]
      simp [fieldBMid, show i - 2 < 3 by omega, show 22 + (i - 2) = 20 + i by omega]
    · rw [if_neg (by omega), if_neg h]
      by_cases h5 : i = 5
      · simp [fieldBHi, h5]
      · simp [fieldBHi, h5, show ¬ i - 2 - 3 < 1 by omega]

/-- The bits of a byte of a word (10_state.md R24). -/
theorem getLsbD_getByte (v : Word) (j i : Nat) : (getByte v j).getLsbD i = (decide (i < 8) && v.getLsbD (8 * j + i)) := by
  simp [getByte]

/-- The byte replaced reads as the new one, the others as before (40_frame_input.md R83). -/
theorem getByte_setByte {j k : Nat} (hk : k < 4) (v : Word) (b : Byte) :
    getByte (setByte v j b) k = if k = j then b else getByte v k := by
  apply BitVec.eq_of_getLsbD_eq
  intro i hi
  have hff : ∀ n, (0xFF#32).getLsbD n = decide (n < 8) := by
    intro n
    by_cases h : n < 32
    · revert n; decide
    · rw [BitVec.getLsbD_of_ge _ _ (by omega)]; symm; simp; omega
  simp only [getLsbD_getByte, setByte, BitVec.getLsbD_or, BitVec.getLsbD_and, BitVec.getLsbD_not,
    BitVec.getLsbD_shiftLeft, BitVec.getLsbD_setWidth, hff, hi, decide_true, Bool.true_and]
  have h32 : 8 * k + i < 32 := by omega
  split
  · subst k
    simp [h32, show 8 * j + i - 8 * j = i by omega, hi]
    omega
  · rename_i hkj
    simp only [getLsbD_getByte, hi, h32, decide_true, Bool.true_and]
    rcases Nat.lt_or_gt_of_ne hkj with h | h
    · simp [show 8 * k + i < 8 * j by omega]
    · have h8 : ¬ 8 * k + i - 8 * j < 8 := by omega
      rw [BitVec.getLsbD_of_ge b _ (by omega)]
      simp [h8]

/-- A word is its four bytes (20_memory.md R44). -/
theorem word_of_bytes (v : Word) : (getByte v 3 ++ getByte v 2 ++ getByte v 1 ++ getByte v 0 : BitVec (8 + 8 + 8 + 8)) = v := by
  apply BitVec.eq_of_getLsbD_eq
  intro i hi
  simp only [BitVec.getLsbD_append, getLsbD_getByte]
  by_cases h0 : i < 8
  · simp [h0]
  · by_cases h1 : i < 16
    · simp [h0, show i - 8 < 8 by omega, show 8 + (i - 8) = i by omega]
    · by_cases h2 : i < 24
      · simp [h0, show ¬ i - 8 < 8 by omega, show i - 8 - 8 < 8 by omega, show 16 + (i - 8 - 8) = i by omega]
      · simp [h0, show ¬ i - 8 < 8 by omega, show ¬ i - 8 - 8 < 8 by omega, show i - 8 - 8 - 8 < 8 by omega,
          show 24 + (i - 8 - 8 - 8) = i by omega]

end Machine

end Sys2Proof
end

