-- ==== Sys2Proof/Laws/Float.lean ====
section
/-! SUPPORT. Binary64: what each helper of the rounding does, and what a pattern stands for. -/

namespace Sys2Proof.Machine

theorem log2_bounds {p : Nat} (hp : 0 < p) : (2 : ℚ) ^ (p.log2 : ℤ) ≤ p ∧ (p : ℚ) < 2 ^ ((p.log2 : ℤ) + 1) := by
  have h1 := Nat.log2_self_le (n := p) (by omega)
  have h2 := Nat.lt_log2_self (n := p)
  constructor
  · rw [zpow_natCast]; exact_mod_cast h1
  · rw [show (p.log2 : ℤ) + 1 = ((p.log2 + 1 : ℕ) : ℤ) by push_cast; rfl, zpow_natCast]; exact_mod_cast h2

/-- The logarithm of a ratio is its floor. -/
theorem ratioLog2_spec {p q : Nat} (hp : 0 < p) (hq : 0 < q) :
    (2 : ℚ) ^ ratioLog2 p q ≤ (p : ℚ) / q ∧ (p : ℚ) / q < 2 ^ (ratioLog2 p q + 1) := by
  obtain ⟨hp1, hp2⟩ := log2_bounds hp
  obtain ⟨hq1, hq2⟩ := log2_bounds hq
  have hq0 : (0 : ℚ) < q := by exact_mod_cast hq
  have two : (2 : ℚ) ≠ 0 := by norm_num
  have pos : ∀ k : ℤ, (0 : ℚ) < 2 ^ k := fun k => zpow_pos (by norm_num) k
  unfold ratioLog2
  rw [le_div_iff₀ hq0, div_lt_iff₀ hq0]
  split
  · rename_i h
    have h' : (q : ℚ) * 2 ^ (p.log2 : ℤ) ≤ p * 2 ^ (q.log2 : ℤ) := by rw [zpow_natCast, zpow_natCast]; exact_mod_cast h
    constructor
    · rw [zpow_sub₀ two, div_mul_eq_mul_div, div_le_iff₀ (pos _)]; linarith
    · rw [show (p.log2 : ℤ) - q.log2 + 1 = (p.log2 + 1) - q.log2 by ring, zpow_sub₀ two, div_mul_eq_mul_div, lt_div_iff₀ (pos _)]
      nlinarith [pos ((p.log2 : ℤ) + 1), pos (q.log2 : ℤ)]
  · rename_i h
    have h' : (p : ℚ) * 2 ^ (q.log2 : ℤ) < q * 2 ^ (p.log2 : ℤ) := by rw [zpow_natCast, zpow_natCast]; exact_mod_cast not_le.1 h
    constructor
    · rw [show (p.log2 : ℤ) - q.log2 - 1 = p.log2 - (q.log2 + 1) by ring, zpow_sub₀ two, div_mul_eq_mul_div, div_le_iff₀ (pos _)]
      nlinarith [pos ((q.log2 : ℤ) + 1), pos (p.log2 : ℤ)]
    · rw [sub_add_cancel, zpow_sub₀ two, div_mul_eq_mul_div, lt_div_iff₀ (pos _)]; linarith

/-- Rounding to an integer: within one half, and even at exactly one half. -/
theorem roundTiesEven_spec (p : Nat) {q : Nat} (hq : 0 < q) :
    2 * p ≤ (2 * roundTiesEven p q + 1) * q ∧ 2 * roundTiesEven p q * q ≤ 2 * p + q ∧
    (2 * p = (2 * roundTiesEven p q + 1) * q → roundTiesEven p q % 2 = 0) ∧
    (2 * roundTiesEven p q * q = 2 * p + q → roundTiesEven p q % 2 = 0) := by
  have hm := Nat.mod_lt p hq
  have hd := Nat.div_add_mod p q
  unfold roundTiesEven
  generalize p % q = r at *
  generalize p / q = d at *
  subst hd
  split
  · refine ⟨by nlinarith, by nlinarith, fun h => ?_, fun h => ?_⟩ <;> nlinarith
  · split
    · refine ⟨by nlinarith, by nlinarith, fun h => ?_, fun h => ?_⟩ <;> nlinarith
    · have : 2 * r = q := by omega
      rcases Nat.mod_two_eq_zero_or_one d with h0 | h1
      · rw [h0]
        refine ⟨by nlinarith, by nlinarith, fun h => by omega, fun h => by nlinarith⟩
      · rw [h1]
        refine ⟨by nlinarith, by nlinarith, fun h => by omega, fun h => by omega⟩

/-- Rounding to an integer, over the rationals. -/
theorem roundTiesEven_rat (p : Nat) {q : Nat} (hq : 0 < q) :
    |(p : ℚ) / q - roundTiesEven p q| ≤ 1 / 2 ∧
    (|(p : ℚ) / q - roundTiesEven p q| = 1 / 2 → roundTiesEven p q % 2 = 0) := by
  obtain ⟨h1, h2, h3, h4⟩ := roundTiesEven_spec p hq
  have hq0 : (0 : ℚ) < q := by exact_mod_cast hq
  generalize roundTiesEven p q = r at *
  have e : (p : ℚ) / q - r = (p - r * q) / q := by field_simp
  have h1' : (2 : ℚ) * p ≤ (2 * r + 1) * q := by exact_mod_cast h1
  have h2' : (2 : ℚ) * r * q ≤ 2 * p + q := by exact_mod_cast h2
  constructor
  · rw [e, abs_le, le_div_iff₀ hq0, div_le_iff₀ hq0]; constructor <;> linarith
  · intro h
    rw [e] at h
    rcases (abs_eq (by norm_num)).1 h with h | h
    · rw [div_eq_iff hq0.ne'] at h
      apply h3
      have : (2 : ℚ) * p = (2 * r + 1) * q := by linarith
      exact_mod_cast this
    · rw [div_eq_iff hq0.ne'] at h
      apply h4
      have : (2 : ℚ) * r * q = 2 * p + q := by linarith
      exact_mod_cast this

/-- A power with an integer exponent as a ratio of two with natural ones. -/
theorem two_zpow_toNat (s : ℤ) : (2 : ℚ) ^ s.toNat / 2 ^ (-s).toNat = 2 ^ s := by
  rcases le_total 0 s with h | h
  · rw [show (-s).toNat = 0 by omega, pow_zero, div_one, ← zpow_natCast, Int.toNat_of_nonneg h]
  · rw [show s.toNat = 0 by omega, pow_zero, ← zpow_natCast, Int.toNat_of_nonneg (by omega), zpow_neg, one_div, inv_inv]

/-- The ratio that `roundMagnitude` rounds is the exact value in the chosen unit. -/
theorem scaled_ratio (p q : Nat) (e t : ℤ) :
    ((p * 2 ^ (e - t).toNat : ℕ) : ℚ) / (q * 2 ^ (t - e).toNat : ℕ) = (p : ℚ) / q * 2 ^ e / 2 ^ t := by
  push_cast
  rw [mul_div_mul_comm, show t - e = -(e - t) by ring, two_zpow_toNat, zpow_sub₀ (by norm_num), mul_div_assoc]

theorem roundUnit_ge (p q : Nat) (e : ℤ) : -1074 ≤ roundUnit p q e := le_max_right _ _

/-- The unit leaves at most 53 bits, and at least 53 above the subnormals. -/
theorem roundUnit_spec {p q : Nat} (hp : 0 < p) (hq : 0 < q) (e : ℤ) :
    (p : ℚ) / q * 2 ^ e < 2 ^ (roundUnit p q e + 53) ∧
    (-1074 < roundUnit p q e → (2 : ℚ) ^ (roundUnit p q e + 52) ≤ (p : ℚ) / q * 2 ^ e) := by
  obtain ⟨h1, h2⟩ := ratioLog2_spec hp hq
  have hpos : (0 : ℚ) < 2 ^ e := zpow_pos (by norm_num) e
  have two : (2 : ℚ) ≠ 0 := by norm_num
  constructor
  · calc (p : ℚ) / q * 2 ^ e < 2 ^ (ratioLog2 p q + 1) * 2 ^ e := by exact mul_lt_mul_of_pos_right h2 hpos
      _ = 2 ^ (ratioLog2 p q + 1 + e) := (zpow_add₀ two _ _).symm
      _ ≤ _ := by
        apply zpow_le_zpow_right₀ (by norm_num)
        have : ratioLog2 p q + e - 52 ≤ roundUnit p q e := le_max_left _ _
        omega
  · intro h
    have e1 : roundUnit p q e = ratioLog2 p q + e - 52 := by
      unfold roundUnit at *; omega
    calc (2 : ℚ) ^ (roundUnit p q e + 52) = 2 ^ (ratioLog2 p q) * 2 ^ e := by rw [← zpow_add₀ two]; congr 1; omega
      _ ≤ _ := mul_le_mul_of_nonneg_right h1 hpos.le

/-- The integer significand that the rounding chooses. -/
def roundSignificand (p q : Nat) (e : Int) : Nat :=
  roundTiesEven (p * 2 ^ (e - roundUnit p q e).toNat) (q * 2 ^ (roundUnit p q e - e).toNat)

/-- The significand is the nearest integer to the exact value in the chosen unit. -/
theorem roundSignificand_near {p q : Nat} (hq : 0 < q) (e : ℤ) :
    |(p : ℚ) / q * 2 ^ e / 2 ^ roundUnit p q e - roundSignificand p q e| ≤ 1 / 2 ∧
    (|(p : ℚ) / q * 2 ^ e / 2 ^ roundUnit p q e - roundSignificand p q e| = 1 / 2 → roundSignificand p q e % 2 = 0) := by
  have := roundTiesEven_rat (p * 2 ^ (e - roundUnit p q e).toNat) (q := q * 2 ^ (roundUnit p q e - e).toNat) (by positivity)
  rwa [scaled_ratio] at this

theorem scaled_bounds {p q : Nat} (hp : 0 < p) (hq : 0 < q) (e : ℤ) :
    (p : ℚ) / q * 2 ^ e / 2 ^ roundUnit p q e < 2 ^ 53 ∧
    (-1074 < roundUnit p q e → (2 : ℚ) ^ 52 ≤ (p : ℚ) / q * 2 ^ e / 2 ^ roundUnit p q e) := by
  obtain ⟨h1, h2⟩ := roundUnit_spec hp hq e
  have hpos : (0 : ℚ) < 2 ^ roundUnit p q e := zpow_pos (by norm_num) _
  have two : (2 : ℚ) ≠ 0 := by norm_num
  constructor
  · rw [div_lt_iff₀ hpos]
    calc _ < _ := h1
      _ = _ := by rw [add_comm, zpow_add₀ two]; norm_num
  · intro h
    rw [le_div_iff₀ hpos]
    calc _ = _ := by rw [add_comm (roundUnit p q e), zpow_add₀ two]; norm_num
      _ ≤ _ := h2 h

theorem roundSignificand_bounds {p q : Nat} (hp : 0 < p) (hq : 0 < q) (e : ℤ) :
    roundSignificand p q e ≤ 2 ^ 53 ∧ (-1074 < roundUnit p q e → 2 ^ 52 ≤ roundSignificand p q e) := by
  obtain ⟨h1, h2⟩ := scaled_bounds hp hq e
  obtain ⟨h3, _⟩ := roundSignificand_near (p := p) hq e
  generalize (p : ℚ) / q * 2 ^ e / 2 ^ roundUnit p q e = X at *
  generalize roundSignificand p q e = r at *
  rw [abs_le] at h3
  constructor
  · have : (r : ℚ) < 2 ^ 53 + 1 := by linarith
    have : r < 2 ^ 53 + 1 := by exact_mod_cast this
    omega
  · intro h
    have : (2 : ℚ) ^ 52 < r + 1 := by linarith [h2 h]
    have : 2 ^ 52 < r + 1 := by exact_mod_cast this
    omega

theorem roundMagnitude_eq {p : Nat} (hp : 0 < p) (q : Nat) (e : ℤ) :
    roundMagnitude p q e = min ((roundUnit p q e + 1074).toNat * 2 ^ 52 + roundSignificand p q e) (2047 * 2 ^ 52) := by
  rw [roundMagnitude, if_neg (by omega)]; rfl

theorem roundMagnitude_le (p q : Nat) (e : ℤ) : roundMagnitude p q e ≤ 2047 * 2 ^ 52 := by
  unfold roundMagnitude
  split <;> omega

/-- The fields of a pattern, as numbers. -/
theorem f64Exponent_eq (x : F64) : f64Exponent x = x.toNat / 2 ^ 52 % 2 ^ 11 := by
  simp [f64Exponent, BitVec.extractLsb'_toNat, Nat.shiftRight_eq_div_pow]
theorem f64Fraction_eq (x : F64) : f64Fraction x = x.toNat % 2 ^ 52 := by
  simp [f64Fraction, BitVec.extractLsb'_toNat]
theorem f64Sign_eq (x : F64) : f64Sign x = decide (2 ^ 63 ≤ x.toNat) := by
  rw [f64Sign]
  have := BitVec.msb_eq_decide x
  rw [BitVec.msb_eq_getLsbD_last] at this
  simpa using this

/-- The non-negative finite values are the patterns below plus infinity. -/
theorem nonneg_finite_iff (x : F64) : (f64Sign x = false ∧ f64IsFinite x = true) ↔ x.toNat < 2047 * 2 ^ 52 := by
  rw [f64Sign_eq, f64IsFinite, f64Exponent_eq]
  have := x.isLt
  simp only [decide_eq_false_iff_not, bne_iff_ne]
  omega

/-- The rational that a pattern below plus infinity stands for. -/
def magToRat (m : Nat) : ℚ := (if m / 2 ^ 52 = 0 then (m % 2 ^ 52 : ℕ) else (2 ^ 52 + m % 2 ^ 52 : ℕ)) * 2 ^ ((max (m / 2 ^ 52) 1 : ℕ) - 1075 : ℤ)

theorem f64ToRat_eq {x : F64} (h : x.toNat < 2047 * 2 ^ 52) : f64ToRat x = magToRat x.toNat := by
  have hs := ((nonneg_finite_iff x).2 h).1
  rw [f64ToRat, hs, magToRat, f64Significand, f64Unit, f64Exponent_eq, f64Fraction_eq, Nat.mod_eq_of_lt (a := x.toNat / 2^52) (by omega)]
  simp

/-- The value of a pattern composed of a unit and a significand; a significand of `2 ^ 53` carries. -/
theorem magToRat_pattern (T m : Nat) (hm : m ≤ 2 ^ 53) (hT : 0 < T → 2 ^ 52 ≤ m) : magToRat (T * 2 ^ 52 + m) = m * 2 ^ ((T : ℤ) - 1074) := by
  have two : (2 : ℚ) ≠ 0 := by norm_num
  rcases Nat.lt_trichotomy m (2 ^ 53) with hlt | heq | hgt
  · by_cases h52 : m < 2 ^ 52
    · have hT0 : T = 0 := by by_contra h; have := hT (by omega); omega
      subst hT0
      simp only [magToRat, zero_mul, zero_add, Nat.div_eq_of_lt h52, Nat.mod_eq_of_lt h52]
      norm_num
    · have hd : (T * 2 ^ 52 + m) / 2 ^ 52 = T + 1 := by omega
      have hmod : 2 ^ 52 + (T * 2 ^ 52 + m) % 2 ^ 52 = m := by omega
      rw [magToRat, hd, if_neg (by omega), hmod]
      congr 2; simp; ring
  · subst heq
    have hd : (T * 2 ^ 52 + 2 ^ 53) / 2 ^ 52 = T + 2 := by omega
    have hmod : (T * 2 ^ 52 + 2 ^ 53) % 2 ^ 52 = 0 := by omega
    rw [magToRat, hd, if_neg (by omega), hmod, show ((max (T + 2) 1 : ℕ) : ℤ) - 1075 = (T : ℤ) - 1074 + 1 by simp; ring, zpow_add₀ two]
    push_cast; ring
  · omega

/-- The value of a rounded magnitude. -/
theorem magToRat_round {p q : Nat} (hp : 0 < p) (hq : 0 < q) (e : ℤ) (hlt : roundMagnitude p q e < 2047 * 2 ^ 52) :
    magToRat (roundMagnitude p q e) = roundSignificand p q e * 2 ^ roundUnit p q e := by
  obtain ⟨h1, h2⟩ := roundSignificand_bounds hp hq e
  have := roundUnit_ge p q e
  rw [roundMagnitude_eq hp] at hlt ⊢
  rw [min_eq_left (by omega), magToRat_pattern _ _ h1 (fun h => h2 (by omega))]
  rw [show (((roundUnit p q e + 1074).toNat : ℕ) : ℤ) - 1074 = roundUnit p q e by omega]

/-- Every pattern is an integer significand in a unit. -/
theorem magToRat_form (m : Nat) : ∃ (z : Nat) (u : ℤ), magToRat m = z * 2 ^ u ∧ z < 2 ^ 53 ∧ -1074 ≤ u ∧ z % 2 = m % 2 ∧ (-1074 < u → 2 ^ 52 ≤ z) ∧ m = (u + 1074).toNat * 2 ^ 52 + z := by
  by_cases h : m / 2 ^ 52 = 0
  · refine ⟨m % 2 ^ 52, -1074, ?_, by omega, by omega, by omega, by omega, by simp; omega⟩
    rw [magToRat, if_pos h, h]; norm_num
  · refine ⟨2 ^ 52 + m % 2 ^ 52, (m / 2 ^ 52 : ℕ) - 1075, ?_, by omega, by omega, by omega, by omega, by omega⟩
    rw [magToRat, if_neg h]
    rw [max_eq_left (by omega)]

end Sys2Proof.Machine
end

