-- ==== Sys2Proof/Laws/Memory.lean ====
section
/-! SUPPORT. The sample store: read after write, and its canonical form. -/

namespace Sys2Proof.Machine

@[simp] theorem Memory.read_nil (k : Nat) : Memory.read [] k = Memory.unlisted := rfl

theorem Memory.read_cons (j : Nat) (x : Word) (rest : Memory) (k : Nat) :
    Memory.read ((j, x) :: rest) k = if j = k then x else rest.read k := rfl

theorem Memory.wfFrom_cons (n lo j : Nat) (x : Word) (rest : Memory) :
    Memory.wfFrom n lo ((j, x) :: rest) = true ↔
      lo ≤ j ∧ j < n ∧ x ≠ Memory.unlisted ∧ Memory.wfFrom n (j + 1) rest = true := by
  simp [Memory.wfFrom, and_assoc]

/-- A canonical store stays canonical from a lower bound. -/
theorem Memory.wfFrom_mono {n a b : Nat} (h : a ≤ b) {m : Memory} (hm : Memory.wfFrom n b m = true) :
    Memory.wfFrom n a m = true := by
  cases m with
  | nil => rfl
  | cons p rest =>
    obtain ⟨j, x⟩ := p
    rw [Memory.wfFrom_cons] at hm ⊢
    exact ⟨h.trans hm.1, hm.2⟩

/-- Below its lower bound a canonical store lists nothing. -/
theorem Memory.read_below {n lo k : Nat} {m : Memory} (hm : Memory.wfFrom n lo m = true) (hk : k < lo) :
    m.read k = Memory.unlisted := by
  induction m generalizing lo with
  | nil => rfl
  | cons p rest ih =>
    obtain ⟨j, x⟩ := p
    rw [Memory.wfFrom_cons] at hm
    rw [Memory.read_cons, if_neg (by omega)]
    exact ih hm.2.2.2 (by omega)

/-- The word put in front is what its index reads as, listed or not. -/
theorem Memory.read_put {n k : Nat} {v : Word} {rest : Memory} (h : Memory.wfFrom n (k + 1) rest = true) (a : Nat) :
    (Memory.put k v rest).read a = if a = k then v else rest.read a := by
  unfold Memory.put
  split
  · rename_i hv
    split
    · rename_i hak
      rw [hak, Memory.read_below h (by omega), hv]
    · rfl
  · rw [Memory.read_cons]
    simp only [eq_comm]

theorem Memory.wfFrom_put {n lo k : Nat} {v : Word} {rest : Memory} (hlo : lo ≤ k) (hk : k < n)
    (h : Memory.wfFrom n (k + 1) rest = true) : Memory.wfFrom n lo (Memory.put k v rest) = true := by
  unfold Memory.put
  split
  · exact Memory.wfFrom_mono (by omega) h
  · rw [Memory.wfFrom_cons]
    exact ⟨hlo, hk, ‹_›, h⟩

/-- Writing keeps the canonical form. -/
theorem Memory.wfFrom_write {n lo k : Nat} {v : Word} {m : Memory} (hm : Memory.wfFrom n lo m = true) (hlo : lo ≤ k)
    (hk : k < n) : Memory.wfFrom n lo (m.write k v) = true := by
  induction m generalizing lo with
  | nil => exact Memory.wfFrom_put hlo hk rfl
  | cons p rest ih =>
    obtain ⟨j, x⟩ := p
    have hc := (Memory.wfFrom_cons ..).1 hm
    unfold Memory.write
    split
    · exact Memory.wfFrom_put hlo hk ((Memory.wfFrom_cons ..).2 ⟨by omega, hc.2⟩)
    · split
      · rename_i hkj
        exact Memory.wfFrom_put hlo hk (hkj ▸ hc.2.2.2)
      · exact (Memory.wfFrom_cons ..).2 ⟨hc.1, hc.2.1, hc.2.2.1, ih hc.2.2.2 (by omega)⟩

/-- A read after a write gives the word written at its index, and what it gave before everywhere else. -/
theorem Memory.readFrom_write {n lo k : Nat} {v : Word} {m : Memory} (hm : Memory.wfFrom n lo m = true) (a : Nat) :
    (m.write k v).read a = if a = k then v else m.read a := by
  induction m generalizing lo with
  | nil => exact Memory.read_put (n := n) rfl a
  | cons p rest ih =>
    obtain ⟨j, x⟩ := p
    have hc := (Memory.wfFrom_cons ..).1 hm
    unfold Memory.write
    split
    · exact Memory.read_put ((Memory.wfFrom_cons ..).2 ⟨by omega, hc.2⟩) a
    · split
      · rename_i hkj
        subst hkj
        rw [Memory.read_put hc.2.2.2, Memory.read_cons]
        split
        · rfl
        · rw [if_neg (by omega)]
      · rw [Memory.read_cons, Memory.read_cons, ih hc.2.2.2]
        split
        · rw [if_neg (by omega)]
        · rfl

/-- MemWrite keeps the canonical form (20_memory.md R42). -/
theorem Memory.wf_write {n k : Nat} {v : Word} {m : Memory} (hm : m.wf n = true) (hk : k < n) :
    (m.write k v).wf n = true :=
  Memory.wfFrom_write hm (Nat.zero_le k) hk

/-- MemRead after MemWrite (20_memory.md R42). -/
theorem Memory.read_write {n k : Nat} {v : Word} {m : Memory} (hm : m.wf n = true) (a : Nat) :
    (m.write k v).read a = if a = k then v else m.read a :=
  Memory.readFrom_write hm a

theorem Memory.wfFrom_ofWordsFrom (n k : Nat) (ws : List Word) :
    Memory.wfFrom n k (Memory.ofWordsFrom n k ws) = true := by
  induction ws generalizing k with
  | nil => rfl
  | cons w ws ih =>
    unfold Memory.ofWordsFrom
    split
    · exact Memory.wfFrom_put le_rfl ‹_› (ih (k + 1))
    · rfl

/-- The store a reset event leaves is canonical. -/
theorem Memory.wf_ofWords (n : Nat) (ws : List Word) : (Memory.ofWords n ws).wf n = true :=
  Memory.wfFrom_ofWordsFrom n 0 ws

theorem Memory.read_ofWordsFrom {n k : Nat} (ws : List Word) {i : Nat} (h : k + i < n) :
    (Memory.ofWordsFrom n k ws).read (k + i) = ws.getD i Memory.unlisted := by
  induction ws generalizing k i with
  | nil => simp [Memory.ofWordsFrom]
  | cons w ws ih =>
    rw [Memory.ofWordsFrom, if_pos (by omega), Memory.read_put (Memory.wfFrom_ofWordsFrom n (k + 1) ws)]
    cases i with
    | zero => simp
    | succ i =>
      rw [if_neg (by omega), show k + (i + 1) = k + 1 + i by omega, ih (by omega)]
      simp

/-- The store a reset event leaves reads as the words drawn. -/
theorem Memory.read_ofWords {n : Nat} (ws : List Word) {i : Nat} (h : i < n) :
    (Memory.ofWords n ws).read i = ws.getD i Memory.unlisted := by
  simpa [Memory.ofWords] using Memory.read_ofWordsFrom (k := 0) ws (by omega : 0 + i < n)

/-- The store at power-on is canonical. -/
theorem Memory.wf_nil (n : Nat) : Memory.wf n [] = true := rfl

end Sys2Proof.Machine
end

