-- ==== Sys2Proof/Laws/State.lean ====
section
/-! SUPPORT. One lemma per field per update of the state. -/

namespace Sys2Proof.Machine

@[simp] theorem State.respond_cfg (r : Response) (s : State) : (s.respond r).cfg = s.cfg := rfl
@[simp] theorem State.respond_cnt (r : Response) (s : State) : (s.respond r).cnt = s.cnt := rfl
@[simp] theorem State.respond_acc (r : Response) (s : State) : (s.respond r).acc = s.acc := rfl
@[simp] theorem State.respond_samples (r : Response) (s : State) : (s.respond r).samples = s.samples := rfl
@[simp] theorem State.respond_et (r : Response) (s : State) : (s.respond r).et = s.et := rfl
@[simp] theorem State.respond_pending (r : Response) (s : State) : (s.respond r).pending = s.pending := rfl
@[simp] theorem State.respond_responses (r : Response) (s : State) : (s.respond r).responses = s.responses ++ [r] := rfl
@[simp] theorem State.respond_rdy (r : Response) (s : State) : (s.respond r).rdy = s.rdy := rfl

@[simp] theorem State.clearFrame_cfg (s : State) : s.clearFrame.cfg = s.cfg := rfl
@[simp] theorem State.clearFrame_cnt (s : State) : s.clearFrame.cnt = 0#32 := rfl
@[simp] theorem State.clearFrame_acc (s : State) : s.clearFrame.acc = 0#32 := rfl
@[simp] theorem State.clearFrame_samples (s : State) : s.clearFrame.samples = s.samples := rfl
@[simp] theorem State.clearFrame_et (s : State) : s.clearFrame.et = s.et := rfl
@[simp] theorem State.clearFrame_pending (s : State) : s.clearFrame.pending = s.pending := rfl
@[simp] theorem State.clearFrame_responses (s : State) : s.clearFrame.responses = s.responses := rfl

@[simp] theorem State.resetTo_cfg (d : List Word) (x : Word) (s : State) : (s.resetTo d x).cfg = s.cfg := rfl
@[simp] theorem State.resetTo_cnt (d : List Word) (x : Word) (s : State) : (s.resetTo d x).cnt = 0#32 := rfl
@[simp] theorem State.resetTo_acc (d : List Word) (x : Word) (s : State) : (s.resetTo d x).acc = 0#32 := rfl
@[simp] theorem State.resetTo_samples (d : List Word) (x : Word) (s : State) :
    (s.resetTo d x).samples = Memory.ofWords s.cfg.n d := rfl
@[simp] theorem State.resetTo_et (d : List Word) (x : Word) (s : State) : (s.resetTo d x).et = x := rfl
@[simp] theorem State.resetTo_pending (d : List Word) (x : Word) (s : State) : (s.resetTo d x).pending = s.pending := rfl
@[simp] theorem State.resetTo_responses (d : List Word) (x : Word) (s : State) :
    (s.resetTo d x).responses = s.responses := rfl

@[simp] theorem State.withPending_cfg (ins : List Input) (s : State) : (s.withPending ins).cfg = s.cfg := rfl
@[simp] theorem State.withPending_cnt (ins : List Input) (s : State) : (s.withPending ins).cnt = s.cnt := rfl
@[simp] theorem State.withPending_acc (ins : List Input) (s : State) : (s.withPending ins).acc = s.acc := rfl
@[simp] theorem State.withPending_samples (ins : List Input) (s : State) : (s.withPending ins).samples = s.samples := rfl
@[simp] theorem State.withPending_et (ins : List Input) (s : State) : (s.withPending ins).et = s.et := rfl
@[simp] theorem State.withPending_pending (ins : List Input) (s : State) : (s.withPending ins).pending = ins := rfl
@[simp] theorem State.withPending_responses (ins : List Input) (s : State) :
    (s.withPending ins).responses = s.responses := rfl
@[simp] theorem State.withPending_withPending (a b : List Input) (s : State) :
    (s.withPending a).withPending b = s.withPending b := rfl

@[simp] theorem State.acceptByte_cfg (b : Byte) (s : State) : (s.acceptByte b).cfg = s.cfg := rfl
@[simp] theorem State.acceptByte_cnt (b : Byte) (s : State) : (s.acceptByte b).cnt = s.cnt + 1#32 := rfl
@[simp] theorem State.acceptByte_acc (b : Byte) (s : State) : (s.acceptByte b).acc = setByte s.acc s.byteLane b := rfl
@[simp] theorem State.acceptByte_pending (b : Byte) (s : State) : (s.acceptByte b).pending = s.pending := rfl
@[simp] theorem State.acceptByte_responses (b : Byte) (s : State) : (s.acceptByte b).responses = s.responses := rfl

/-- A state is told from its fields. -/
theorem State.ext_fields {s t : State} (h1 : t.cfg = s.cfg) (h2 : t.cnt = s.cnt) (h3 : t.acc = s.acc)
    (h4 : t.samples = s.samples) (h5 : t.et = s.et) (h6 : t.pending = s.pending) (h7 : t.responses = s.responses) :
    t = s := by
  cases s; cases t; simp_all

end Sys2Proof.Machine
end

