-- ==== Sys2Proof/Laws/Ops.lean ====
section
/-! SUPPORT. What the shared operations, the operations of the table and a step can do. -/

namespace Sys2Proof.Machine

/-- FRAME_LEN fits in 32 bits (00_scope.md R6). -/
@[simp] theorem Config.toNat_frameLen (c : Config) : c.frameLen.toNat = c.frameBytes := by
  have := c.bounded
  simp only [Config.frameLen, Config.frameBytes, BitVec.toNat_ofNat]
  omega

theorem State.cnt_eq_frameLen_iff (s : State) : s.cnt = s.cfg.frameLen ↔ s.cnt.toNat = s.cfg.frameBytes := by
  rw [← BitVec.toNat_inj, Config.toNat_frameLen]

theorem State.rdy_eq (s : State) : s.rdy = decide (s.cnt = s.cfg.frameLen) := rfl

theorem State.phase_eq_ready (s : State) : s.phase = .ready ↔ s.cnt = s.cfg.frameLen := by
  unfold State.phase State.rdy
  split <;> simp_all

theorem State.phase_eq_recv (s : State) : s.phase = .recv ↔ s.cnt ≠ s.cfg.frameLen := by
  unfold State.phase State.rdy
  split <;> simp_all

/-- An accepted byte counts by one, without wrapping (10_state.md R22). -/
theorem State.acceptByte_toNat_cnt {b : Byte} {s : State} (h : s.cnt.toNat < s.cfg.frameBytes) :
    (s.acceptByte b).cnt.toNat = s.cnt.toNat + 1 := by
  have := s.cfg.bounded
  have : s.cfg.frameBytes = 4 * s.cfg.n + 4 := rfl
  simp only [State.acceptByte_cnt, BitVec.toNat_add, BitVec.toNat_ofNat]
  omega

/-- An accepted byte leaves the store canonical. -/
theorem State.acceptByte_wf {b : Byte} {s : State} (h : s.samples.wf s.cfg.n = true) :
    (s.acceptByte b).samples.wf s.cfg.n = true := by
  simp only [State.acceptByte]
  split
  · exact Memory.wf_write h (by tauto)
  · exact h

theorem raise_eq (st : Status) (s : State) : raise st s = .next (s.respond (errorResponse st)) := rfl

theorem reply_eq (r : Response) (s : State) : reply r s = .next (s.respond r) := rfl

/-- PUSH_BYTE in READY (60_exceptions.md R142). -/
theorem exec_pushByte_ready {b : Byte} {s : State} (h : s.cnt = s.cfg.frameLen) :
    exec (.pushByte b) s = .next (s.respond (errorResponse .overrun)) :=
  if_pos h

/-- PUSH_BYTE below FRAME_LEN (40_frame_input.md R83). -/
theorem exec_pushByte_recv {b : Byte} {s : State} (h : s.cnt ≠ s.cfg.frameLen) :
    exec (.pushByte b) s = .next ((s.acceptByte b).respond (statusResponse (s.acceptByte b))) :=
  if_neg h

/-- READ_SAMPLE before the frame is complete (60_exceptions.md R144). -/
theorem exec_readSample_recv {i : Word} {s : State} (h : s.cnt ≠ s.cfg.frameLen) :
    exec (.readSample i) s = .next (s.respond (errorResponse .notReady)) :=
  if_pos h

/-- READ_SAMPLE in READY past the last index (60_exceptions.md R144). -/
theorem exec_readSample_outOfRange {i : Word} {s : State} (h : s.cnt = s.cfg.frameLen) (hi : s.cfg.n ≤ i.toNat) :
    exec (.readSample i) s = .next (s.respond (errorResponse .index)) :=
  (if_neg (not_not.2 h)).trans (if_pos hi)

/-- READ_SAMPLE in READY at an index of the frame (42_sample_readout.md R120). -/
theorem exec_readSample_held {i : Word} {s : State} (h : s.cnt = s.cfg.frameLen) (hi : i.toNat < s.cfg.n) :
    exec (.readSample i) s =
      .next (s.respond (sampleResponse s (s.samples.read i.toNat) (timeOffset s.cfg.n i.toNat s.et))) :=
  (if_neg (not_not.2 h)).trans (if_neg (not_le.2 hi))

/-- What a request's operation can do: CLEAR or an accepted byte changes the frame state; everything else only returns a
response, an error among them. -/
theorem exec_cases (i : Instr) (s : State) (hi : ∀ w, i ≠ .sampleWord w) :
    (i = .clear ∧ exec i s = .next (s.clearFrame.respond { st := .ok })) ∨
    (∃ b, i = .pushByte b ∧ s.cnt ≠ s.cfg.frameLen ∧
      exec i s = .next ((s.acceptByte b).respond (statusResponse (s.acceptByte b)))) ∨
    (i ≠ .clear ∧ (∀ b, i = .pushByte b → s.cnt = s.cfg.frameLen) ∧ ∃ r, exec i s = .next (s.respond r)) := by
  cases i with
  | clear => exact .inl ⟨rfl, rfl⟩
  | pushByte b =>
    by_cases h : s.cnt = s.cfg.frameLen
    · exact .inr (.inr ⟨by simp, fun _ _ => h, _, exec_pushByte_ready h⟩)
    · exact .inr (.inl ⟨b, rfl, h, exec_pushByte_recv h⟩)
  | readSample j =>
    refine .inr (.inr ⟨by simp, by simp, ?_⟩)
    by_cases h : s.cnt = s.cfg.frameLen
    · by_cases hj : s.cfg.n ≤ j.toNat
      · exact ⟨_, exec_readSample_outOfRange h hj⟩
      · exact ⟨_, exec_readSample_held h (not_le.1 hj)⟩
    · exact ⟨_, exec_readSample_recv h⟩
  | readStatus => exact .inr (.inr ⟨by simp, by simp, _, rfl⟩)
  | extract w => exact .inr (.inr ⟨by simp, by simp, _, rfl⟩)
  | illegalOp5 => exact .inr (.inr ⟨by simp, by simp, _, rfl⟩)
  | illegalOp67 op => exact .inr (.inr ⟨by simp, by simp, _, rfl⟩)
  | sampleWord w => exact absurd rfl (hi w)

/-- No request decodes to the layout row. -/
theorem decode_request_ne_sampleWord (r : Request) (w : Word) : decode (.request r) ≠ .sampleWord w := by
  show decodeRequest r ≠ .sampleWord w
  unfold decodeRequest
  split <;> simp

theorem step_waiting {s : State} (h : s.pending = []) : step s = .next s := by
  simp [step, State.takeInput, h]

theorem step_word {s : State} {t : TableWord} {rest : List Input} (h : s.pending = .word t :: rest) :
    step s = exec (decode t) (s.withPending rest) := by
  simp [step, State.takeInput, h]

theorem step_reset {s : State} {d : List Word} {x : Word} {rest : List Input} (h : s.pending = .reset d x :: rest) :
    step s = .next ((s.withPending rest).resetTo d x) := by
  simp [step, State.takeInput, h]

end Sys2Proof.Machine
end

