-- ==== Sys2Proof/Laws/PerInstr.lean ====
section
/-! SUPPORT. Statements about every operation as syntax, one lemma per constructor. -/

/-- The mnemonic of an operation is that of the table's row its word selects, or of the layout row. -/
def Sys2Proof.Laws.RowOfEncoding.Statement (i : Sys2Proof.Instr) : Prop :=
  i.wf = true →
    match Sys2Proof.encode i with
    | .request r => ∃ row ∈ Sys2Proof.requestTable, row.selects r = true ∧ row.mnemonic = i.mnemonic
    | .sample _ => i.mnemonic = "SAMPLE_WORD"

namespace Sys2Proof.Laws.RowOfEncoding

/-- The mask of every row but the last keeps the op code alone. -/
theorem selects_make (name : String) (op : OpCode) (data : Word) :
    TableRow.selects ⟨name, 0x700000000#35, Request.make op 0#32⟩ (Request.make op data) = true := by
  unfold TableRow.selects Request.make
  simp only [beq_iff_eq]
  apply BitVec.eq_of_getLsbD_eq
  intro i hi
  simp only [BitVec.getLsbD_and, BitVec.getLsbD_append]
  by_cases h : i < 32
  · have : (0x700000000#35).getLsbD i = false := by revert i; decide
    simp [h, this]
  · have : (0x700000000#35).getLsbD i = true := by revert i; decide
    simp [h, this]

theorem clear : Statement .clear := fun _ =>
  ⟨_, by simp [requestTable, Request.make], selects_make "CLEAR" 0#3 0#32, rfl⟩

theorem pushByte (b : Byte) : Statement (.pushByte b) := fun _ =>
  ⟨_, by simp [requestTable, Request.make], selects_make "PUSH_BYTE" 1#3 (BitVec.setWidth 32 b), rfl⟩

theorem readSample (i : Word) : Statement (.readSample i) := fun _ =>
  ⟨_, by simp [requestTable, Request.make], selects_make "READ_SAMPLE" 2#3 i, rfl⟩

theorem readStatus : Statement .readStatus := fun _ =>
  ⟨_, by simp [requestTable, Request.make], selects_make "READ_STATUS" 3#3 0#32, rfl⟩

theorem extract (w : Word) : Statement (.extract w) := fun _ =>
  ⟨_, by simp [requestTable, Request.make], selects_make "EXTRACT" 4#3 w, rfl⟩

theorem illegalOp5 : Statement .illegalOp5 := fun _ =>
  ⟨_, by simp [requestTable, Request.make], selects_make "ILLEGAL_OP5" 5#3 0#32, rfl⟩

theorem illegalOp67 (op : OpCode) : Statement (.illegalOp67 op) := by
  intro h
  refine ⟨⟨"ILLEGAL_OP6_7", 0x600000000#35, 0x600000000#35⟩, by simp [requestTable], ?_, rfl⟩
  have : op = 6#3 ∨ op = 7#3 := by simpa [Instr.wf] using h
  rcases this with rfl | rfl <;> decide

theorem sampleWord (w : Word) : Statement (.sampleWord w) := fun _ => rfl

end Sys2Proof.Laws.RowOfEncoding
end

