-- ==== Sys2Proof/Laws/Rounding.lean ====
section
/-! SUPPORT. Binary64: the rounding is to nearest, monotone and exact where it can be, and what `fmul` and `fdiv` round on
finite non-negative values. -/

namespace Sys2Proof.Machine

/-- Rounding to nearest, ties to even: no pattern lies nearer the exact value, and one as near is odd
(00_scope.md R9). -/
theorem round_nearest {p q : Nat} (hp : 0 < p) (hq : 0 < q) (e : ℤ) (hlt : roundMagnitude p q e < 2047 * 2 ^ 52) (m : Nat) (hne : m ≠ roundMagnitude p q e) :
    |(p : ℚ) / q * 2 ^ e - magToRat (roundMagnitude p q e)| ≤ |(p : ℚ) / q * 2 ^ e - magToRat m| ∧
    (|(p : ℚ) / q * 2 ^ e - magToRat (roundMagnitude p q e)| = |(p : ℚ) / q * 2 ^ e - magToRat m| →
      roundMagnitude p q e % 2 = 0 ∧ m % 2 = 1) := by
  obtain ⟨hn1, hn2⟩ := roundSignificand_near (p := p) hq e
  obtain ⟨hs1, hs2⟩ := scaled_bounds hp hq e
  obtain ⟨hb1, hb2⟩ := roundSignificand_bounds hp hq e
  obtain ⟨z, u, hz, hz53, hu, hzp, hz52, hmz⟩ := magToRat_form m
  have hge := roundUnit_ge p q e
  have hpar : roundMagnitude p q e % 2 = roundSignificand p q e % 2 := by
    rw [roundMagnitude_eq hp] at hlt ⊢; rw [min_eq_left (by omega)]; omega
  rw [hpar, ← hzp]
  have hval := magToRat_round hp hq e hlt
  have hM : roundMagnitude p q e = (roundUnit p q e + 1074).toNat * 2 ^ 52 + roundSignificand p q e := by
    rw [roundMagnitude_eq hp] at hlt ⊢; rw [min_eq_left (by omega)]
  rw [hM] at hne
  rw [hval, hz]
  clear hval hpar hM
  generalize roundUnit p q e = t at *
  generalize roundSignificand p q e = r at *
  have hpos : (0 : ℚ) < 2 ^ t := zpow_pos (by norm_num) _
  have two : (2 : ℚ) ≠ 0 := by norm_num
  obtain ⟨X, hX⟩ : ∃ X : ℚ, X = (p : ℚ) / q * 2 ^ e / 2 ^ t := ⟨_, rfl⟩
  have hv : (p : ℚ) / q * 2 ^ e = X * 2 ^ t := by rw [hX]; field_simp
  rw [← hX] at hn1 hn2 hs1 hs2
  rw [hv]
  have hz' : (z : ℚ) * 2 ^ u = (z * 2 ^ (u - t)) * 2 ^ t := by rw [mul_assoc, ← zpow_add₀ two]; congr 2; ring
  rw [hz', ← sub_mul, ← sub_mul, abs_mul, abs_mul, abs_of_pos hpos]
  rw [mul_le_mul_iff_left₀ hpos, mul_left_inj' hpos.ne']
  by_cases hut : u < t
  · -- finer unit: z is below 2^52
    have hzlt : (z : ℚ) * 2 ^ (u - t) < 2 ^ 52 := by
      have h1 : (2 : ℚ) ^ (u - t) ≤ 2 ^ (-1 : ℤ) := zpow_le_zpow_right₀ (by norm_num) (by omega)
      have h2 : (z : ℚ) < 2 ^ 53 := by exact_mod_cast hz53
      have h3 : (0 : ℚ) < 2 ^ (u - t) := zpow_pos (by norm_num) _
      calc (z : ℚ) * 2 ^ (u - t) < 2 ^ 53 * 2 ^ (u - t) := mul_lt_mul_of_pos_right h2 h3
        _ ≤ 2 ^ 53 * 2 ^ (-1 : ℤ) := mul_le_mul_of_nonneg_left h1 (by positivity)
        _ = 2 ^ 52 := by norm_num
    have hX52 := hs2 (by omega)
    have hr52 := hb2 (by omega)
    -- |X - r| ≤ |X - 2^52|
    have hstep : |X - r| ≤ X - 2 ^ 52 := by
      rcases Nat.lt_or_ge (2 ^ 52) r with h | h
      · have : ((2 : ℚ) ^ 52) + 1 ≤ r := by exact_mod_cast h
        rw [abs_le] at hn1 ⊢; constructor <;> linarith
      · have : r = 2 ^ 52 := by omega
        have h' : (r : ℚ) = 2 ^ 52 := by rw [this]; norm_num
        rw [h', abs_of_nonneg (by linarith)]
    have hlt' : |X - r| < |X - z * 2 ^ (u - t)| := by
      calc _ ≤ _ := hstep
        _ < X - z * 2 ^ (u - t) := by linarith
        _ ≤ _ := le_abs_self _
    exact ⟨hlt'.le, fun h => absurd h hlt'.ne⟩
  · obtain ⟨d, hd⟩ : ∃ d : ℕ, u - t = d := ⟨(u - t).toNat, by omega⟩
    rw [hd, zpow_natCast]
    have hzi : (z : ℚ) * 2 ^ d = ((z * 2 ^ d : ℕ) : ℚ) := by push_cast; rfl
    rw [hzi]
    have hrz : r ≠ z * 2 ^ d := by
      intro h
      apply hne
      have hu' : (u + 1074).toNat = (t + 1074).toNat + d := by omega
      rw [hmz, hu', h]
      rcases Nat.eq_zero_or_pos d with h0 | h0
      · subst h0; simp
      · have : 2 ^ 52 ≤ z := hz52 (by omega)
        have h2d : 2 ≤ 2 ^ d := by calc 2 = 2 ^ 1 := rfl
                                     _ ≤ 2 ^ d := Nat.pow_le_pow_right (by norm_num) h0
        -- then r ≥ 2^53, so equal
        have hge' : 2 ^ 53 ≤ z * 2 ^ d := by nlinarith
        have hd1 : d = 1 := by
          by_contra hne1
          have : 4 ≤ 2 ^ d := by calc 4 = 2 ^ 2 := rfl
                                     _ ≤ 2 ^ d := Nat.pow_le_pow_right (by norm_num) (by omega)
          have : 2 ^ 54 ≤ z * 2 ^ d := by nlinarith
          omega
        subst hd1
        have : z = 2 ^ 52 := by omega
        subst this; omega
    have hdist : (1 : ℚ) ≤ |(r : ℚ) - ((z * 2 ^ d : ℕ) : ℚ)| := by
      have : (1 : ℤ) ≤ |(r : ℤ) - ((z * 2 ^ d : ℕ) : ℤ)| := Int.one_le_abs (by omega)
      exact_mod_cast this
    have htri : |(r : ℚ) - ((z * 2 ^ d : ℕ) : ℚ)| ≤ |X - r| + |X - ((z * 2 ^ d : ℕ) : ℚ)| := by
      have := abs_sub_le (r : ℚ) X ((z * 2 ^ d : ℕ) : ℚ)
      rwa [abs_sub_comm (r : ℚ) X] at this
    refine ⟨by linarith, fun h => ?_⟩
    have hhalf : |X - r| = 1 / 2 := by linarith
    have hone : |(r : ℚ) - ((z * 2 ^ d : ℕ) : ℚ)| = 1 := by linarith
    have hreven := hn2 hhalf
    refine ⟨hreven, ?_⟩
    have hone' : |(r : ℤ) - ((z * 2 ^ d : ℕ) : ℤ)| = 1 := by exact_mod_cast hone
    rcases Nat.mod_two_eq_zero_or_one z with h0 | h1
    · exfalso
      have : (z * 2 ^ d) % 2 = 0 := by rw [Nat.mul_mod, h0]; simp
      rcases (abs_eq (by norm_num)).1 hone' with h | h <;> omega
    · exact h1

theorem roundSigned_false (p q : Nat) (e : ℤ) : roundSigned false p q e = BitVec.ofNat 64 (roundMagnitude p q e) := by
  simp [roundSigned, f64Zero]
theorem toNat_roundSigned (p q : Nat) (e : ℤ) : (roundSigned false p q e).toNat = roundMagnitude p q e := by
  rw [roundSigned_false, BitVec.toNat_ofNat]
  have := roundMagnitude_le p q e
  omega

/-- Rounding is monotone. -/
theorem roundMagnitude_mono {p q p' q' : Nat} {e e' : ℤ} (hq : 0 < q) (hq' : 0 < q') (h : (p : ℚ) / q * 2 ^ e ≤ (p' : ℚ) / q' * 2 ^ e') :
    roundMagnitude p q e ≤ roundMagnitude p' q' e' := by
  rcases Nat.eq_zero_or_pos p with h0 | hp
  · simp [roundMagnitude, h0]
  have hv : (0 : ℚ) < (p : ℚ) / q * 2 ^ e := by positivity
  have hp' : 0 < p' := by
    by_contra hh
    have : p' = 0 := by omega
    subst this; simp at h; linarith
  have two : (2 : ℚ) ≠ 0 := by norm_num
  obtain ⟨a1, a2⟩ := roundUnit_spec hp hq e
  obtain ⟨b1, b2⟩ := roundUnit_spec hp' hq' e'
  obtain ⟨c1, c2⟩ := roundSignificand_bounds hp hq e
  obtain ⟨d1, d2⟩ := roundSignificand_bounds hp' hq' e'
  obtain ⟨n1, n2⟩ := roundSignificand_near (p := p) hq e
  obtain ⟨m1, m2⟩ := roundSignificand_near (p := p') hq' e'
  have g1 := roundUnit_ge p q e
  have g2 := roundUnit_ge p' q' e'
  rw [roundMagnitude_eq hp, roundMagnitude_eq hp']
  generalize (p : ℚ) / q * 2 ^ e = v at *
  generalize (p' : ℚ) / q' * 2 ^ e' = v' at *
  generalize roundUnit p q e = t at *
  generalize roundUnit p' q' e' = t' at *
  generalize roundSignificand p q e = r at *
  generalize roundSignificand p' q' e' = r' at *
  apply min_le_min_right
  rcases lt_trichotomy t t' with hlt | heq | hgt
  · have := d2 (by omega); omega
  · subst heq
    have hpos : (0 : ℚ) < 2 ^ t := zpow_pos (by norm_num) _
    have hX : v / 2 ^ t ≤ v' / 2 ^ t := div_le_div_of_nonneg_right h hpos.le
    have : r ≤ r' := by
      by_contra hh
      have hh' : (r' : ℚ) + 1 ≤ r := by exact_mod_cast (by omega : r' + 1 ≤ r)
      have x1 := (abs_le.1 n1).1
      have x2 := (abs_le.1 m1).2
      have e1 : v / 2 ^ t - r = -(1/2) := by linarith
      have e2 : v' / 2 ^ t - r' = 1/2 := by linarith
      have e3 : (r : ℚ) = r' + 1 := by linarith
      have e3' : r = r' + 1 := by exact_mod_cast e3
      have := n2 (by rw [e1]; norm_num)
      have := m2 (by rw [e2]; norm_num)
      omega
    omega
  · exfalso
    have := a2 (by omega)
    have h3 : (2 : ℚ) ^ (t' + 53) ≤ 2 ^ (t + 52) := zpow_le_zpow_right₀ (by norm_num) (by omega)
    linarith

/-- A representable value rounds to itself. -/
theorem roundMagnitude_exact {p q : Nat} {e : ℤ} (hp : 0 < p) (hq : 0 < q) (m : Nat) (hm : m < 2047 * 2 ^ 52) (h : (p : ℚ) / q * 2 ^ e = magToRat m) :
    roundMagnitude p q e = m := by
  by_contra hne
  by_cases hlt : roundMagnitude p q e < 2047 * 2 ^ 52
  · obtain ⟨h1, h2⟩ := round_nearest hp hq e hlt m (fun h => hne h.symm)
    rw [h, sub_self, abs_zero] at h1 h2
    have h3 := abs_nonpos_iff.1 h1
    have := h2 (by rw [h3]; simp)
    -- values equal means patterns equal
    obtain ⟨z, u, hz, hz53, hu, hzp, hz52, hmz⟩ := magToRat_form m
    obtain ⟨z', u', hz', hz53', hu', hzp', hz52', hmz'⟩ := magToRat_form (roundMagnitude p q e)
    have he : (z : ℚ) * 2 ^ u = z' * 2 ^ u' := by rw [← hz, ← hz']; linarith
    -- z odd; z' even
    rcases le_total u u' with hle | hle
    · obtain ⟨d, hd⟩ : ∃ d : ℕ, u' = u + d := ⟨(u' - u).toNat, by omega⟩
      rw [hd, zpow_add₀ (by norm_num), zpow_natCast] at he
      have hpos : (0 : ℚ) < 2 ^ u := zpow_pos (by norm_num) _
      have : (z : ℚ) = z' * 2 ^ d := by
        have : (z : ℚ) * 2 ^ u = (z' * 2 ^ d) * 2 ^ u := by linarith
        exact mul_right_cancel₀ hpos.ne' this
      have hz1 : z = z' * 2 ^ d := by exact_mod_cast this
      have : z % 2 = 0 := by rw [hz1, Nat.mul_mod]; rw [show z' % 2 = 0 by omega]; simp
      omega
    · rcases eq_or_lt_of_le hle with heq | hlt'
      · subst heq
        have hpos : (0 : ℚ) < 2 ^ u' := zpow_pos (by norm_num) _
        have := mul_right_cancel₀ hpos.ne' he
        have : z = z' := by exact_mod_cast this
        omega
      · obtain ⟨d, hd⟩ : ∃ d : ℕ, u = u' + d := ⟨(u - u').toNat, by omega⟩
        rw [hd, zpow_add₀ (by norm_num), zpow_natCast] at he
        have hpos : (0 : ℚ) < 2 ^ u' := zpow_pos (by norm_num) _
        have : (z : ℚ) * 2 ^ d = z' := by
          have : ((z : ℚ) * 2 ^ d) * 2 ^ u' = z' * 2 ^ u' := by linarith
          exact mul_right_cancel₀ hpos.ne' this
        have hz1 : z * 2 ^ d = z' := by exact_mod_cast this
        have : 2 ^ 52 ≤ z := hz52 (by omega)
        have hd1 : 1 ≤ d := by omega
        have : 2 ≤ 2 ^ d := by calc 2 = 2 ^ 1 := rfl
                                 _ ≤ 2 ^ d := Nat.pow_le_pow_right (by norm_num) hd1
        have : z % 2 = 1 := by omega
        nlinarith
  · -- infinite result impossible
    have hle := roundMagnitude_le p q e
    have hinf : roundMagnitude p q e = 2047 * 2 ^ 52 := by omega
    obtain ⟨n1, n2⟩ := roundSignificand_near (p := p) hq e
    obtain ⟨s1, s2⟩ := roundUnit_spec hp hq e
    obtain ⟨c1, c2⟩ := roundSignificand_bounds hp hq e
    obtain ⟨z, u, hz, hz53, hu, hzp, hz52, hmz⟩ := magToRat_form m
    rw [h, hz] at n1 s2 s1
    rw [roundMagnitude_eq hp] at hinf
    have g := roundUnit_ge p q e
    generalize roundUnit p q e = t at *
    generalize roundSignificand p q e = r at *
    have hbig : 2047 * 2 ^ 52 ≤ (t + 1074).toNat * 2 ^ 52 + r := min_eq_right_iff.1 hinf
    have ht : 971 ≤ t := by omega
    have htu : t ≤ u := by
      by_contra hh
      have := s2 (by omega)
      have h4 : (z : ℚ) * 2 ^ u < 2 ^ (u + 53) := by
        rw [add_comm, zpow_add₀ (by norm_num)]
        have : (z : ℚ) < 2 ^ 53 := by exact_mod_cast hz53
        exact mul_lt_mul_of_pos_right (by norm_num at this ⊢; exact this) (zpow_pos (by norm_num) _)
      have h5 : (2 : ℚ) ^ (u + 53) ≤ 2 ^ (t + 52) := zpow_le_zpow_right₀ (by norm_num) (by omega)
      linarith
    have : u ≤ 971 := by have := hz52 (by omega); omega
    have e1 : t = 971 := by omega
    have e2 : u = 971 := by omega
    subst e1; subst e2
    have hpos : (0 : ℚ) < 2 ^ (971 : ℤ) := zpow_pos (by norm_num) _
    rw [mul_div_assoc, div_self hpos.ne', mul_one, abs_le] at n1
    have : (r : ℚ) ≤ z + 1/2 := by linarith
    have : (r : ℚ) < z + 1 := by linarith
    have : r < z + 1 := by exact_mod_cast this
    omega

theorem notNaN_of {x : F64} (h : x.toNat < 2047 * 2 ^ 52) : f64IsNaN x = false ∧ f64IsInf x = false ∧ f64Sign x = false := by
  obtain ⟨h1, h2⟩ := (nonneg_finite_iff x).2 h
  simp only [f64IsFinite, bne_iff_ne] at h2
  exact ⟨by simp [f64IsNaN, h2], by simp [f64IsInf, h2], h1⟩

theorem fmul_eq {x y : F64} (hx : x.toNat < 2047 * 2 ^ 52) (hy : y.toNat < 2047 * 2 ^ 52) :
    (fmul x y).toNat = roundMagnitude (f64Significand x * f64Significand y) 1 (f64Unit x + f64Unit y) := by
  obtain ⟨a, b, c⟩ := notNaN_of hx
  obtain ⟨a', b', c'⟩ := notNaN_of hy
  simp [fmul, a, b, c, a', b', c', toNat_roundSigned]

theorem isZero_iff {x : F64} (hx : x.toNat < 2047 * 2 ^ 52) : f64IsZero x = true ↔ x = 0#64 := by
  rw [f64IsZero, f64Exponent_eq, f64Fraction_eq, ← BitVec.toNat_inj]
  simp
  omega

theorem fdiv_eq {x y : F64} (hx : x.toNat < 2047 * 2 ^ 52) (hy : y.toNat < 2047 * 2 ^ 52) (hz : f64IsZero y = false) :
    (fdiv x y).toNat = roundMagnitude (f64Significand x) (f64Significand y) (f64Unit x - f64Unit y) := by
  obtain ⟨a, b, c⟩ := notNaN_of hx
  obtain ⟨a', b', c'⟩ := notNaN_of hy
  simp [fdiv, a, b, c, a', b', c', hz, toNat_roundSigned]

theorem sig_pos {y : F64} (hz : f64IsZero y = false) : 0 < f64Significand y := by
  unfold f64Significand f64IsZero at *
  split
  · rename_i h; simp [h] at hz; omega
  · omega
theorem rat_nonneg {x : F64} (h : f64Sign x = false) : f64ToRat x = f64Significand x * 2 ^ f64Unit x := by simp [f64ToRat, h]

theorem quot_value {x y : F64} (hx : f64Sign x = false) (hy : f64Sign y = false) :
    (f64Significand x : ℚ) / f64Significand y * 2 ^ (f64Unit x - f64Unit y) = f64ToRat x / f64ToRat y := by
  rw [rat_nonneg hx, rat_nonneg hy, zpow_sub₀ (by norm_num), mul_div_mul_comm]
theorem prod_value {x y : F64} (hx : f64Sign x = false) (hy : f64Sign y = false) :
    ((f64Significand x * f64Significand y : ℕ) : ℚ) / (1 : ℕ) * 2 ^ (f64Unit x + f64Unit y) = f64ToRat x * f64ToRat y := by
  rw [rat_nonneg hx, rat_nonneg hy, zpow_add₀ (by norm_num)]; push_cast; ring

end Sys2Proof.Machine
end

