-- ==== Sys2Proof/Laws/Run.lean ====
section
/-! SUPPORT. Runs over a list of inputs, one step at a time. -/

namespace Sys2Proof.Machine

theorem run_zero (s : State) : Host.Core.run Sys2Proof.core 0 s = .next s := rfl

theorem run_succ (k : Nat) (s : State) :
    Host.Core.run Sys2Proof.core (k + 1) s =
      match step s with
      | .next t => Host.Core.run Sys2Proof.core k t
      | .fault r => .fault r
      | .refused r => .refused r := by
  have h := Host.Core.run.eq_2 Sys2Proof.core s k
  rw [show Sys2Proof.core.step s = step s from rfl] at h
  rw [h]
  cases step s <;> rfl

/-- A run's first step. -/
theorem run_of_step {k : Nat} {s t : State} (h : step s = .next t) :
    Host.Core.run Sys2Proof.core (k + 1) s = Host.Core.run Sys2Proof.core k t := by
  rw [run_succ, h]

theorem runInputs_nil (s : State) : runInputs [] s = .next (s.withPending []) := rfl

/-- A run over inputs, first input first. -/
theorem runInputs_cons {i : Input} {ins : List Input} {s t : State} (h : step (s.withPending (i :: ins)) = .next t)
    (hp : t.pending = ins) : runInputs (i :: ins) s = runInputs ins t := by
  subst hp
  exact run_of_step h

theorem programInputs_cons (l : Line) (p : List Line) :
    programInputs (l :: p) = (lineRequests l).map (fun r => Input.word (.request r)) ++ programInputs p := by
  simp [programInputs]

end Sys2Proof.Machine
end

