-- ==== Sys2Proof/Tests/Slice0.lean ====
section
/-! SUPPORT. Tests of the model against words and values of the spec, the check of ill-formed terms, and for every statement
with hypotheses a state and operands that meet them. -/

namespace Sys2Proof.Tests

open Sys2Proof.Machine

/-! ## Helpers -/

/-- The build with one sample word. -/
def one : Config := ⟨1, by decide, by decide⟩

/-- The build with two sample words. -/
def two : Config := ⟨2, by decide, by decide⟩

/-- A state with nothing pending and nothing answered. -/
def at_ (c : Config) (cnt acc : Word) (samples : Memory) (et : Word) : State :=
  { cfg := c, cnt := cnt, acc := acc, samples := samples, et := et, pending := [], responses := [] }

/-- The held frame of 95_test_vectors.md P3. -/
def held : State := at_ two 12#32 0x3A99#32 [(0, 0x00000A80#32), (1, 0x08840A80#32)] 15001#32

/-- The next state of an outcome. -/
def nextOf : Host.Outcome State Fault Refusal → Option State
  | .next s => some s
  | .fault _ => none
  | .refused _ => none

/-- The responses after an outcome. -/
def responsesOf (o : Host.Outcome State Fault Refusal) : Option (List Response) := (nextOf o).map (·.responses)

/-- A request as an input. -/
def req (op : OpCode) (data : Word) : Input := .word (.request (Request.make op data))

/-! ## Well-formedness -/

/-- 30_encoding.md R62: op code 5 is not of the row ILLEGAL_OP6_7. -/
theorem test_wf_refuses_op5_in_row67 : (Instr.illegalOp67 5#3).wf = false := by decide

/-- 30_encoding.md R62: nor is op code 0. -/
theorem test_wf_refuses_op0_in_row67 : (Instr.illegalOp67 0#3).wf = false := by decide

theorem test_wf_accepts_op6_and_op7 : (Instr.illegalOp67 6#3).wf = true ∧ (Instr.illegalOp67 7#3).wf = true := by decide

/-! ## Decoding: words written out bit by bit from 30_encoding.md R61 to R66 -/

theorem test_decode_clear : decode (.request 0b000_00000000000000000000000000000000#35) = .clear := by decide
theorem test_decode_clear_ignores_data : decode (.request 0b000_11111111111111111111111111111111#35) = .clear := by decide
theorem test_decode_pushByte : decode (.request 0b001_111111111111111111111111_10101011#35) = .pushByte 0xAB#8 := by decide
theorem test_decode_readSample :
    decode (.request 0b010_00000000000000000010011100001111#35) = .readSample 9999#32 := by decide
theorem test_decode_readStatus : decode (.request 0b011_10000000000000000000000000000001#35) = .readStatus := by decide
theorem test_decode_extract :
    decode (.request 0b100_0000_0_0_1_000_000_00_00000_10101_0000000#35) = .extract 0x02000A80#32 := by decide
theorem test_decode_illegalOp5 : decode (.request 0b101_00000000000000000000000000000000#35) = .illegalOp5 := by decide
theorem test_decode_op6 : decode (.request 0b110_00010010001101000101011001111000#35) = .illegalOp67 6#3 := by decide
theorem test_decode_op7 : decode (.request 0b111_11111111111111111111111111111111#35) = .illegalOp67 7#3 := by decide
/-- Bit by bit `----B-Ammm---bb-----aaaaa-------` with B_HI, B_LO = 01 and A_LO = 10000 set. -/
theorem test_decode_sampleWord :
    decode (.sample 0b0000_1_0_0_000_000_01_00000_10000_0000000#32) = .sampleWord 0x08020800#32 ∧
    chA 0x08020800#32 = 16#6 ∧ chB 0x08020800#32 = 33#6 := by decide
/-- A request has 35 bits (30_encoding.md R61). -/
theorem test_decode_rejects_bit35 : decodeTableWord 40 0x800000000 = none := by decide
theorem test_readTableWord_names_its_reason : readTableWord 40 0x800000000 = .error .aboveRequest := by rfl

/-! ## One step of each operation, with values of 95_test_vectors.md -/

/-- Section 2.5, any state: CLEAR with all DATA bits set. -/
theorem test_clear_in_ready :
    nextOf (step (held.withPending [req 0#3 0xFFFFFFFF#32])) =
      some { held with cnt := 0#32, acc := 0#32, responses := [{ st := .ok }] } := by decide

/-- Section 2.5: the fourth byte commits `S[0]`. -/
theorem test_push_commits_sample :
    (nextOf (step ((at_ one 3#32 0x00000A80#32 [] 0#32).withPending [req 1#3 0x02#32]))).map
      (fun t => (t.cnt, t.acc, t.samples, t.responses)) =
      some (4#32, 0x02000A80#32, [(0, 0x02000A80#32)], [{ st := .ok, cnt := 4#32 }]) := by decide

/-- Section 2.5 and P1 step 9: the last byte commits ET and makes the SDX READY. -/
theorem test_push_last_byte :
    (nextOf (step ((at_ one 7#32 0x020003E8#32 [(0, 0x02000A80#32)] 5#32).withPending [req 1#3 0xFFFFFF00#32]))).map
      (fun t => (t.cnt, t.samples, t.et, t.responses)) =
      some (8#32, [(0, 0x02000A80#32)], 0x000003E8#32, [{ st := .ok, rdy := true, cnt := 8#32 }]) := by decide

/-- P3 step 17: READ 1, with the offset 7500.5 and the voltages of codes 21 and 42. -/
theorem test_read_held_sample :
    responsesOf (step (held.withPending [req 2#3 1#32])) =
      some [{ st := .ok, rdy := true, cnt := 12#32, cha := 21#6, chb := 42#6, toff := 0x40BD4C8000000000#64,
              va := 0x3FFAAAAAAAAAAAAA#64, vb := 0x400AAAAAAAAAAAAA#64 }] := by decide

/-- Section 2.6: READ 2 in READY with N = 2; READ 5 in RECV. -/
theorem test_read_errors :
    responsesOf (step (held.withPending [req 2#3 2#32])) = some [{ st := .index }] ∧
    responsesOf (step ((at_ two 5#32 0#32 [] 0#32).withPending [req 2#3 5#32])) = some [{ st := .notReady }] := by decide

/-- Section 2.5: READ_STATUS in READY with N = 10000. -/
theorem test_status_reference_build :
    responsesOf (step ({ State.reset with cnt := 40004#32 }.withPending [req 3#3 7#32])) =
      some [{ st := .ok, rdy := true, cnt := 40004#32 }] := by decide

/-- 41_field_extract.md R100, its example, directly after reset. -/
theorem test_extract_example :
    responsesOf (step (State.reset.withFetchWord 40 0x402000A80)) =
      some [{ st := .ok, cha := 53#6, chb := 0#6, va := 0x4010D34D34D34D35#64 }] := by decide

/-- P4 step 12: EXTRACT in mid-frame. -/
theorem test_extract_all_ones :
    responsesOf (step ((at_ two 4#32 0#32 [] 0#32).withPending [req 4#3 0xFFFFFFFF#32])) =
      some [{ st := .ok, cnt := 4#32, cha := 63#6, chb := 63#6, va := 0x4014000000000000#64, vb := 0x4014000000000000#64 }] := by
  decide

/-- 60_exceptions.md R141, its example. -/
theorem test_illegal_op5 :
    (nextOf (step (held.withPending [req 5#3 0xAB#32]))) = some { held with responses := [{ st := .illegalOp }] } := by decide

/-- Section 2.6: op codes 6 and 7. -/
theorem test_illegal_op67 :
    responsesOf (step (held.withPending [req 6#3 0x12345678#32])) = some [{ st := .illegalOp }] ∧
    responsesOf (step (held.withPending [req 7#3 0xFFFFFFFF#32])) = some [{ st := .illegalOp }] := by decide

/-- 70_reset_and_hazards.md R160: a reset in READY; the draws are in the store, and no response is returned. -/
theorem test_reset_event :
    nextOf (step (held.withPending [.reset [0#32, 9#32, 7#32] 4#32])) =
      some { held with cnt := 0#32, acc := 0#32, samples := [(1, 9#32)], et := 4#32 } := by decide

/-- 30_encoding.md R71: PUSHW is little-endian. -/
theorem test_pushw : lineRequests (.pushw 0x02000A80#32) = [0x100000080#35, 0x10000000A#35, 0x100000000#35, 0x100000002#35] := by
  decide

/-- 42_sample_readout.md R126 on the frame of P2. -/
theorem test_decodeFrame :
    decodeFrame two (wireBytes [0xFFFFFFFF#32, 0x09C60000#32] 15000#32) =
      some [⟨0#64, 63#6, 63#6, 0x4014000000000000#64, 0x4014000000000000#64⟩,
            ⟨0x40BD4C0000000000#64, 0#6, 63#6, 0#64, 0x4014000000000000#64⟩] := by decide

/-! ## Values of 95_test_vectors.md section 2 -/

/-- 95_test_vectors.md section 2.3, codes 0 to 15. -/
theorem test_volts_from_0 :
    (List.range' 0 16).map (fun v => volts (BitVec.ofNat 6 v)) =
      [0x0000000000000000#64, 0x3FB4514514514514#64, 0x3FC4514514514514#64, 0x3FCE79E79E79E79E#64, 0x3FD4514514514514#64, 0x3FD9659659659659#64, 0x3FDE79E79E79E79E#64, 0x3FE1C71C71C71C72#64]
      ++ [0x3FE4514514514514#64, 0x3FE6DB6DB6DB6DB6#64, 0x3FE9659659659659#64, 0x3FEBEFBEFBEFBEFC#64, 0x3FEE79E79E79E79E#64, 0x3FF0820820820820#64, 0x3FF1C71C71C71C72#64, 0x3FF30C30C30C30C3#64] := by decide

/-- 95_test_vectors.md section 2.3, codes 16 to 31. -/
theorem test_volts_from_16 :
    (List.range' 16 16).map (fun v => volts (BitVec.ofNat 6 v)) =
      [0x3FF4514514514514#64, 0x3FF5965965965965#64, 0x3FF6DB6DB6DB6DB6#64, 0x3FF8208208208208#64, 0x3FF9659659659659#64, 0x3FFAAAAAAAAAAAAA#64, 0x3FFBEFBEFBEFBEFC#64, 0x3FFD34D34D34D34D#64]
      ++ [0x3FFE79E79E79E79E#64, 0x3FFFBEFBEFBEFBEF#64, 0x4000820820820820#64, 0x4001249249249249#64, 0x4001C71C71C71C72#64, 0x400269A69A69A69A#64, 0x40030C30C30C30C3#64, 0x4003AEBAEBAEBAEB#64] := by decide

/-- 95_test_vectors.md section 2.3, codes 32 to 47. -/
theorem test_volts_from_32 :
    (List.range' 32 16).map (fun v => volts (BitVec.ofNat 6 v)) =
      [0x4004514514514514#64, 0x4004F3CF3CF3CF3D#64, 0x4005965965965965#64, 0x400638E38E38E38E#64, 0x4006DB6DB6DB6DB6#64, 0x40077DF7DF7DF7DF#64, 0x4008208208208208#64, 0x4008C30C30C30C30#64]
      ++ [0x4009659659659659#64, 0x400A082082082082#64, 0x400AAAAAAAAAAAAA#64, 0x400B4D34D34D34D3#64, 0x400BEFBEFBEFBEFC#64, 0x400C924924924924#64, 0x400D34D34D34D34D#64, 0x400DD75D75D75D75#64] := by decide

/-- 95_test_vectors.md section 2.3, codes 48 to 63. -/
theorem test_volts_from_48 :
    (List.range' 48 16).map (fun v => volts (BitVec.ofNat 6 v)) =
      [0x400E79E79E79E79E#64, 0x400F1C71C71C71C7#64, 0x400FBEFBEFBEFBEF#64, 0x401030C30C30C30C#64, 0x4010820820820820#64, 0x4010D34D34D34D35#64, 0x4011249249249249#64, 0x401175D75D75D75D#64]
      ++ [0x4011C71C71C71C72#64, 0x4012186186186186#64, 0x401269A69A69A69A#64, 0x4012BAEBAEBAEBAE#64, 0x40130C30C30C30C3#64, 0x40135D75D75D75D7#64, 0x4013AEBAEBAEBAEB#64, 0x4014000000000000#64] := by decide

/-- 95_test_vectors.md section 2.4: N, ET, i and the pattern of the offset. -/
theorem test_timeOffset_reference_build :
    (([(10000, 10000, 0, 0x0000000000000000), (10000, 10000, 1, 0x3FF0000000000000), (10000, 10000, 9999, 0x40C3878000000000), (10000, 12345, 1, 0x3FF3C083126E978D), (10000, 12345, 5, 0x4018B0A3D70A3D70)]
      ++ [(10000, 12345, 9999, 0x40C81BE1FBE76C8B), (10000, 0, 5000, 0x0000000000000000), (10000, 4294967295, 1, 0x411A36E2EB020C4A), (10000, 4294967295, 3, 0x4133A92A30418938), (10000, 4294967295, 9999, 0x41EFFF2E48C8A7F0)]) : List (Nat × Nat × Nat × Nat)).all
      (fun r => timeOffset r.1 r.2.2.1 (BitVec.ofNat 32 r.2.1) == BitVec.ofNat 64 r.2.2.2) = true := by decide

/-- 95_test_vectors.md section 2.4: N, ET, i and the pattern of the offset. -/
theorem test_timeOffset_small_builds :
    (([(2, 15000, 1, 0x40BD4C0000000000), (2, 15001, 1, 0x40BD4C8000000000), (1, 1000, 0, 0x0000000000000000), (3, 10, 1, 0x400AAAAAAAAAAAAB), (3, 10, 2, 0x401AAAAAAAAAAAAB)]
      ++ [(7, 100, 3, 0x40456DB6DB6DB6DC), (1, 4294967295, 0, 0x0000000000000000)]) : List (Nat × Nat × Nat × Nat)).all
      (fun r => timeOffset r.1 r.2.2.1 (BitVec.ofNat 32 r.2.1) == BitVec.ofNat 64 r.2.2.2) = true := by decide

/-- 95_test_vectors.md section 2.1, selected words: the word and its two codes. -/
theorem test_channel_codes :
    (([(0x00000000, 0, 0), (0xFFFFFFFF, 63, 63), (0xF439F07F, 0, 0), (0x0BC60F80, 63, 63), (0x02000F80, 63, 0)]
      ++ [(0x09C60000, 0, 63), (0x02000A80, 53, 0), (0x00000A80, 21, 0), (0x0A000000, 32, 32), (0x01C00000, 0, 28)]
      ++ [(0x00060000, 0, 3), (0x00000F80, 31, 0), (0x52E6B438, 40, 15), (0xF2A74DE4, 59, 11), (0x269E0D37, 58, 11)]
      ++ [(0x6513270E, 14, 17), (0xA6A3A450, 40, 9), (0x0C5C7FD0, 31, 38), (0x128B2F33, 62, 9), (0xD23F0824, 48, 3)]) : List (Word × Code × Code)).all
      (fun r => chA r.1 == r.2.1 && chB r.1 == r.2.2) = true := by decide

/-- 95_test_vectors.md section 2.2: two codes and the word that carries them. -/
theorem test_encodeCodes :
    (([(0, 0, 0x00000000), (1, 0, 0x00000080), (0, 1, 0x00020000), (31, 0, 0x00000F80), (32, 0, 0x02000000), (0, 3, 0x00060000), (0, 4, 0x00400000)]
      ++ [(0, 28, 0x01C00000), (0, 32, 0x08000000), (53, 0, 0x02000A80), (63, 63, 0x0BC60F80), (21, 42, 0x08840A80), (42, 21, 0x03420500)]) : List (Code × Code × Word)).all
      (fun r => encodeCodes r.1 r.2.1 == r.2.2) = true := by decide

/-! ## Witnesses: for every statement with hypotheses, a state and operands that meet them -/

/-- A frame of the one-sample build: a READ_STATUS between its eight bytes. -/
def frame1 : List Input := req 3#3 0#32 :: (wireBytes [0x02000A80#32] 1000#32).map fun b => .word (.request (pushRequest b))

/-- Four bytes of a frame of the one-sample build. -/
def part1 : List Input := (wordBytes 0x02000A80#32).map fun b => .word (.request (pushRequest b))

theorem witness_DecodeOfEncode : (Instr.illegalOp67 7#3).wf = true ∧ (Instr.pushByte 0xFF#8).wf = true := by decide

theorem witness_StepPerformsDecodedRequest :
    (Instr.illegalOp67 6#3).wf = true ∧
    (held.withPending [.word (encode (.illegalOp67 6#3))]).pending = .word (encode (.illegalOp67 6#3)) :: [] ∧
    (held.withPending [.word (.request 0#35)]).pending = .word (.request 0#35) :: [] ∧
    held.pending = [] := by decide

theorem witness_EveryRequestHasOneResponse :
    (held.withPending [.word (.request 0x7FFFFFFFF#35)]).pending = .word (.request 0x7FFFFFFFF#35) :: [] := rfl

theorem witness_ClearStartsNewFrame :
    (held.withPending [req 0#3 5#32]).pending = .word (.request (Request.make 0#3 5#32)) :: [] ∧
    WithinFrame part1 ∧ (offeredBytes part1).length < (at_ one 8#32 0#32 [] 0#32).cfg.frameBytes := by
  unfold WithinFrame; decide

theorem witness_PushByteAssemblesWords_commit_sample :
    (at_ two 7#32 0#32 [(0, 1#32)] 0#32).samples.wf 2 = true ∧
    (at_ two 7#32 0#32 [(0, 1#32)] 0#32).cnt.toNat < two.frameBytes ∧ 7 % 4 = 3 ∧ 7 / 4 < two.n := by decide

theorem witness_PushByteAssemblesWords_commit_et :
    (at_ two 11#32 0#32 [] 0#32).samples.wf 2 = true ∧ (at_ two 11#32 0#32 [] 0#32).cnt.toNat < two.frameBytes ∧
    11 % 4 = 3 ∧ 11 / 4 = two.n := by decide

theorem witness_PushByteAssemblesWords_no_commit :
    (at_ two 0#32 0#32 [] 0#32).samples.wf 2 = true ∧ (at_ two 0#32 0#32 [] 0#32).cnt.toNat < two.frameBytes ∧ 0 % 4 ≠ 3 ∧
    (held.withPending [req 1#3 0x1FF#32]).pending = .word (.request (Request.make 1#3 0x1FF#32)) :: [] := by decide

theorem witness_PushByteAssemblesWords_overrun : held.cnt = held.cfg.frameLen := by decide

theorem witness_PushByteAssemblesWords_four :
    (at_ one 0#32 7#32 [] 0#32).samples.wf one.n = true ∧ (at_ one 0#32 7#32 [] 0#32).cnt.toNat < one.frameBytes ∧
    0 % 4 = 0 ∧ 0 / 4 < one.n ∧ (at_ one 4#32 7#32 [] 0#32).cnt.toNat < one.frameBytes ∧ 4 % 4 = 0 ∧ 4 / 4 = one.n := by
  decide

theorem witness_OverrunKeepsTheFrame : held.phase = .ready ∧ (1#32).toNat < held.cfg.n := by decide

theorem witness_ReadStatusReportsProgress :
    held.phase = .ready ∧
    (held.withPending [req 3#3 9#32]).pending = .word (.request (Request.make 3#3 9#32)) :: [] ∧
    nextOf (exec .readStatus held) =
      some { held with responses := held.responses ++ [{ st := .ok, rdy := true, cnt := 12#32 }] } := by decide

theorem witness_OnlyPushAndBoundariesChangeCount_inv : held.Inv ∧ (at_ two 11#32 0#32 [] 0#32).Inv := by
  unfold State.Inv; decide

theorem witness_OnlyPushAndBoundariesChangeCount_inputs :
    isBoundary (req 0#3 1#32) = true ∧ isBoundary (.reset [] 0#32) = true ∧ offeredByte (req 1#3 0x1FF#32) = some 0xFF#8 ∧
    (at_ two 11#32 0#32 [] 0#32).cnt ≠ two.frameLen ∧ held.cnt = held.cfg.frameLen ∧
    isBoundary (req 2#3 0#32) = false ∧ offeredByte (req 2#3 0#32) = none := by decide

theorem witness_OnlyPushAndBoundariesChangeCount_steps :
    nextOf (step held) = some held ∧
    (nextOf (step (held.withPending [req 0#3 1#32]))).isSome = true ∧
    (nextOf (step (held.withPending [.reset [] 0#32]))).isSome = true ∧
    (nextOf (step (held.withPending [req 1#3 0x1FF#32]))).isSome = true ∧
    (nextOf (step ((at_ two 11#32 0#32 [] 0#32).withPending [req 1#3 0x1FF#32]))).isSome = true ∧
    (nextOf (step (held.withPending [req 2#3 7#32]))).isSome = true := by decide

theorem witness_CountNeverExceedsFrameLen :
    (nextOf (Host.Core.run Sys2Proof.core 1 ((State.powerOn one).withPending part1))).map (·.cnt) = some 1#32 := by decide

theorem witness_FrameEndsWithItsLastByte_short :
    (at_ one 3#32 0#32 [] 0#32).cnt.toNat ≤ one.frameBytes ∧ WithinFrame (req 2#3 0#32 :: part1) ∧
    3 + (offeredBytes (req 2#3 0#32 :: part1)).length < one.frameBytes := by
  unfold WithinFrame; decide

theorem witness_FrameEndsWithItsLastByte_full :
    (at_ one 4#32 0#32 [] 0#32).cnt.toNat ≤ one.frameBytes ∧ WithinFrame part1 ∧
    one.frameBytes ≤ 4 + (offeredBytes part1).length := by
  unfold WithinFrame; decide

theorem witness_FrameEndsWithItsLastByte_none :
    WithinFrame [req 2#3 0#32, req 6#3 0#32] ∧ offeredBytes [req 2#3 0#32, req 6#3 0#32] = [] := by
  unfold WithinFrame; decide

theorem witness_ExtractDecodesItsWord :
    0xF439F07F#32 &&& 0x02000F80#32 = 0#32 ∧ 0xF439F07F#32 &&& 0x09C60000#32 = 0#32 ∧
    0x08400000#32 &&& ~~~0x09C60000#32 = 0#32 ∧
    (held.withPending [req 4#3 9#32]).pending = .word (.request (Request.make 4#3 9#32)) :: [] := by decide

theorem witness_IntegersConvertExactly : 2 ^ 53 - 1 < 2 ^ 53 := by norm_num

theorem witness_DivisionRoundsToNearestEven :
    f64IsFinite (f64 5) = true ∧ f64Sign (f64 5) = false ∧ f64IsFinite (f64 63) = true ∧ f64Sign (f64 63) = false ∧
    f64IsZero (f64 63) = false ∧ f64IsFinite (fdiv (f64 5) (f64 63)) = true ∧ f64IsFinite (f64 1) = true ∧
    f64Sign (f64 1) = false ∧ f64 1 ≠ fdiv (f64 5) (f64 63) := by decide

/-- Half the smallest subnormal lies as near to that subnormal as to zero, which is even. -/
theorem witness_DivisionRoundsToNearestEven_tie :
    fdiv 1#64 (f64 2) = 0#64 ∧ f64IsFinite 1#64 = true ∧ f64Sign 1#64 = false ∧
    |f64ToRat 1#64 / f64ToRat (f64 2) - f64ToRat (fdiv 1#64 (f64 2))| =
      |f64ToRat 1#64 / f64ToRat (f64 2) - f64ToRat 1#64| := by
  have h0 : fdiv 1#64 (f64 2) = 0#64 := by decide
  have v0 : f64ToRat 0#64 = 0 := by simp [f64ToRat, show f64Significand 0#64 = 0 by decide]
  have v2 : f64ToRat (f64 2) = 2 := by
    rw [f64ToRat, show f64Sign (f64 2) = false by decide, show f64Significand (f64 2) = 2 ^ 52 by decide,
      show f64Unit (f64 2) = -51 by decide]
    norm_num
  refine ⟨h0, by decide, by decide, ?_⟩
  rw [h0, v0, v2, sub_zero, show f64ToRat 1#64 / 2 - f64ToRat 1#64 = -(f64ToRat 1#64 / 2) by ring, abs_neg]

theorem witness_ProductRoundsToNearestEven :
    f64IsFinite (f64 (2 ^ 52 + 1)) = true ∧ f64Sign (f64 (2 ^ 52 + 1)) = false ∧ f64IsFinite 0x3FF8000000000000#64 = true ∧
    f64Sign 0x3FF8000000000000#64 = false ∧ f64IsFinite (fmul (f64 (2 ^ 52 + 1)) 0x3FF8000000000000#64) = true ∧
    f64IsFinite (f64 6755399441055745) = true ∧ f64Sign (f64 6755399441055745) = false ∧
    f64 6755399441055745 ≠ fmul (f64 (2 ^ 52 + 1)) 0x3FF8000000000000#64 := by decide

/-- `(2 ^ 52 + 1) * 1.5` lies half way between two integers, and the even one is the product. -/
theorem witness_ProductRoundsToNearestEven_tie :
    |f64ToRat (f64 (2 ^ 52 + 1)) * f64ToRat 0x3FF8000000000000#64 - f64ToRat (fmul (f64 (2 ^ 52 + 1)) 0x3FF8000000000000#64)| =
      |f64ToRat (f64 (2 ^ 52 + 1)) * f64ToRat 0x3FF8000000000000#64 - f64ToRat (f64 6755399441055745)| := by
  have h : fmul (f64 (2 ^ 52 + 1)) 0x3FF8000000000000#64 = f64 6755399441055746 := by decide
  have v1 : f64ToRat (f64 (2 ^ 52 + 1)) = 2 ^ 52 + 1 := by
    rw [f64ToRat, show f64Sign (f64 (2 ^ 52 + 1)) = false by decide,
      show f64Significand (f64 (2 ^ 52 + 1)) = 2 ^ 52 + 1 by decide, show f64Unit (f64 (2 ^ 52 + 1)) = 0 by decide]
    norm_num
  have v2 : f64ToRat 0x3FF8000000000000#64 = 3 / 2 := by
    rw [f64ToRat, show f64Sign 0x3FF8000000000000#64 = false by decide,
      show f64Significand 0x3FF8000000000000#64 = 3 * 2 ^ 51 by decide, show f64Unit 0x3FF8000000000000#64 = -52 by decide]
    norm_num
  have v3 : f64ToRat (f64 6755399441055746) = 6755399441055746 := by
    rw [f64ToRat, show f64Sign (f64 6755399441055746) = false by decide,
      show f64Significand (f64 6755399441055746) = 6755399441055746 by decide, show f64Unit (f64 6755399441055746) = 0 by decide]
    norm_num
  have v4 : f64ToRat (f64 6755399441055745) = 6755399441055745 := by
    rw [f64ToRat, show f64Sign (f64 6755399441055745) = false by decide,
      show f64Significand (f64 6755399441055745) = 6755399441055745 by decide, show f64Unit (f64 6755399441055745) = 0 by decide]
    norm_num
  rw [h, v1, v2, v3, v4]
  norm_num

theorem witness_TimeOffsetLaws : 0 ≤ 1 ∧ 1 < two.n ∧ (2#32).toNat = two.n := by decide

theorem witness_ArithmeticStaysNormal : 9999 < Config.reference.n ∧ 0 < one.n := by decide

theorem witness_ReadSampleDeliversDecodedSample :
    (held.withPending [req 2#3 1#32]).pending = .word (.request (Request.make 2#3 1#32)) :: [] ∧
    (at_ two 11#32 0#32 [] 0#32).cnt ≠ two.frameLen ∧ held.cnt = held.cfg.frameLen ∧ held.cfg.n ≤ (2#32).toNat ∧
    held.cfg.n ≤ (0xFFFFFFFF#32).toNat ∧ (1#32).toNat < held.cfg.n ∧ (0#32).toNat < held.cfg.n ∧
    ({ held with et := 0#32 } : State).et = 0#32 := by decide

theorem witness_ReadsAndIllegalRequestsChangeNothing : ∃ op, Instr.illegalOp67 6#3 = .illegalOp67 op := ⟨_, rfl⟩

theorem witness_OnlyFieldBitsOfStoreObservable :
    ({ held with samples := [(0, 0xF439FAFF#32), (1, 0x08840A80#32)] } : State).cfg = held.cfg ∧
    ({ held with samples := [(0, 0xF439FAFF#32), (1, 0x08840A80#32)] } : State).samples ≠ held.samples ∧
    ∀ k < held.cfg.n, held.samples.read k &&& 0x0BC60F80#32 =
      Memory.read [(0, 0xF439FAFF#32), (1, 0x08840A80#32)] k &&& 0x0BC60F80#32 := by decide

theorem witness_FrameLineIsLittleEndian : [7#32, 9#32][1]? = some 9#32 := by decide

theorem witness_StatusOfEveryRequest :
    held.cnt.toNat ≤ held.cfg.frameBytes ∧
    (held.withPending [req 2#3 2#32]).pending = .word (.request (Request.make 2#3 2#32)) :: [] ∧
    (Request.make 2#3 2#32).op = 2#3 ∧ held.cfg.n ≤ (Request.make 2#3 2#32).data.toNat := by decide

theorem witness_ErrorIsLocalAndForgotten :
    (held.withPending [req 1#3 0#32]).pending = .word (.request (Request.make 1#3 0#32)) :: [] ∧
    nextOf (step (held.withPending [req 1#3 0#32])) = some { held with responses := held.responses ++ [{ st := .overrun }] } ∧
    Status.overrun ≠ .ok ∧ nextOf (Host.Core.run Sys2Proof.core 1 { held with pending := [] }) = some held := by decide

theorem witness_IllegalOpCodesRejected :
    5 ≤ (5#3).toNat ∧ 5 ≤ (7#3).toNat ∧
    (held.withPending [req 7#3 3#32]).pending = .word (.request (Request.make 7#3 3#32)) :: [] := by decide

theorem witness_ResetLeavesStatedValues :
    (held.withPending [.reset [3#32, 4#32] 5#32]).pending = .reset [3#32, 4#32] 5#32 :: [] ∧ 1 < held.cfg.n ∧
    [3#32, 4#32][1]? = some 4#32 := by decide

theorem witness_ResetContentsNeverObserved :
    (nextOf (Host.Core.run Sys2Proof.core 2 { held with pending := .reset [3#32] 5#32 :: [req 3#3 0#32] })).isSome = true := by
  decide

theorem witness_ClearAndResetLookAlike :
    held.samples.wf held.cfg.n = true ∧
    (nextOf (Host.Core.run Sys2Proof.core (1 + 1) { held with pending := .reset [3#32] 5#32 :: [req 3#3 0#32] })).isSome = true ∧
    (nextOf (exec .clear held)).isSome = true := by decide

theorem witness_StepKeepsInvariant : held.Inv ∧ (nextOf (step (held.withPending [req 0#3 0#32]))).isSome = true := by
  unfold State.Inv; decide

theorem witness_CanonicalStoresAreExtensional : Memory.wf 2 [(0, 7#32)] = true ∧ ∀ k, Memory.read [(0, 7#32)] k = Memory.read [(0, 7#32)] k :=
  ⟨by decide, fun _ => rfl⟩

/-- A frame cut short, with the bytes of `ACC` in play, and a frame held. -/
theorem witness_AcceptedBytesDetermineState :
    held.samples.wf held.cfg.n = true ∧ isBoundary (.reset [] 0#32) = true ∧ WithinFrame (req 1#3 9#32 :: part1) ∧
    WithinFrame frame1 ∧ ((offeredBytes (req 1#3 9#32 :: part1)).take one.frameBytes).length % 4 = 1 ∧
    ((offeredBytes frame1).take one.frameBytes).length = one.frameBytes := by
  unfold WithinFrame; decide

theorem witness_ReceiverAgreesWithDecodeFrame :
    (at_ one 3#32 1#32 [] 0#32).samples.wf one.n = true ∧ isBoundary (req 0#3 0#32) = true ∧ WithinFrame frame1 ∧
    (offeredBytes frame1).length = one.frameBytes ∧
    (decodeFrame one (offeredBytes frame1)).map (fun l => l[(0#32).toNat]?) =
      some (some ⟨0#64, 53#6, 0#6, 0x4010D34D34D34D35#64, 0#64⟩) := by
  unfold WithinFrame; decide

theorem witness_ReadoutIsRestartable_ready : held.phase = .ready ∧ WithinFrame [req 1#3 0#32, req 2#3 1#32] := by
  unfold WithinFrame; decide

theorem witness_ReadoutIsRestartable_frame :
    (at_ one 3#32 1#32 [] 0#32).samples.wf one.n = true ∧ isBoundary (req 0#3 0#32) = true ∧ WithinFrame frame1 ∧
    (offeredBytes frame1).length = one.frameBytes ∧ ∀ i ∈ [0#32, 0#32], i.toNat < one.n := by
  have h : (0#32).toNat < one.n := by decide
  refine ⟨by decide, by decide, by unfold WithinFrame; decide, by decide, fun i hi => ?_⟩
  obtain rfl : i = 0#32 := by simpa using hi
  exact h

theorem witness_ReadoutIsRestartable_run :
    (nextOf (runInputs (req 0#3 0#32 :: frame1) (at_ one 3#32 1#32 [] 0#32))).isSome = true := by
  decide

theorem witness_SyntheticFrameRoundTrip :
    (at_ two 3#32 1#32 [] 0#32).samples.wf two.n = true ∧ [(21#6, 42#6), (63#6, 0#6)].length = two.n ∧
    [(21#6, 42#6), (63#6, 0#6)][(1#32).toNat]? = some (63#6, 0#6) := by decide

end Sys2Proof.Tests
end

namespace Sys2Proof.Machine

/-! ## What a step does with the next input -/

theorem isBoundary_word (t : TableWord) : isBoundary (.word t) = true ↔ decode t = .clear := by
  simp [isBoundary]

theorem offeredByte_word (t : TableWord) (b : Byte) : offeredByte (.word t) = some b ↔ decode t = .pushByte b := by
  cases h : decode t <;> simp [offeredByte, h]

/-- A bare sample word is no transaction (30_encoding.md R73): the step refuses it. -/
theorem step_sample {s : State} {w : Word} {rest : List Input} (h : s.pending = .word (.sample w) :: rest) :
    step s = .refused .notAnOperation :=
  step_word h

theorem not_sample_of_step {s t : State} {i : Input} {rest : List Input} (h : s.pending = i :: rest)
    (ht : step s = .next t) (w : Word) : i ≠ .word (.sample w) := by
  rintro rfl
  simp [step_sample h] at ht

theorem not_sample_of_isRequest {i : Input} (h : isRequest i = true) (w : Word) : i ≠ .word (.sample w) := by
  rintro rfl
  simp [isRequest] at h

/-- What a step can do with the next input: a boundary resets or clears the frame; a byte offered below FRAME_LEN is
accepted; everything else only returns a response. -/
theorem step_cases {s : State} {i : Input} {rest : List Input} (h : s.pending = i :: rest)
    (hi : ∀ w, i ≠ .word (.sample w)) :
    (isBoundary i = true ∧ offeredByte i = none ∧
      ((∃ d x, step s = .next ((s.withPending rest).resetTo d x)) ∨
        step s = .next ((s.withPending rest).clearFrame.respond { st := .ok }))) ∨
    (isBoundary i = false ∧ ∃ b, offeredByte i = some b ∧ s.cnt ≠ s.cfg.frameLen ∧ ∃ r,
      step s = .next (((s.withPending rest).acceptByte b).respond r)) ∨
    (isBoundary i = false ∧ (∀ b, offeredByte i = some b → s.cnt = s.cfg.frameLen) ∧ ∃ r,
      step s = .next ((s.withPending rest).respond r)) := by
  cases i with
  | reset d x => exact .inl ⟨rfl, rfl, .inl ⟨d, x, step_reset h⟩⟩
  | word t =>
    have hs : ∀ w, decode t ≠ .sampleWord w := by
      cases t with
      | request r => exact decode_request_ne_sampleWord r
      | sample w => exact absurd rfl (hi w)
    rw [step_word h]
    rcases exec_cases (decode t) (s.withPending rest) hs with
      ⟨hc, he⟩ | ⟨b, hb, hcnt, he⟩ | ⟨hc, hb, r, he⟩
    · exact .inl ⟨(isBoundary_word t).2 hc, by simp [offeredByte, hc], .inr he⟩
    · exact .inr (.inl ⟨by simp [isBoundary, hb], b, (offeredByte_word t b).2 hb, hcnt, _, he⟩)
    · exact .inr (.inr ⟨by simpa [isBoundary] using hc, fun b hob => hb b ((offeredByte_word t b).1 hob), r, he⟩)

/-- A boundary leaves no byte accepted, and a canonical store canonical (40_frame_input.md R81, 70_reset_and_hazards.md
R161). -/
theorem step_boundary {s : State} {i : Input} {rest : List Input} (h : s.pending = i :: rest)
    (hi : isBoundary i = true) (hwf : s.samples.wf s.cfg.n = true) :
    ∃ t, step s = .next t ∧ t.cfg = s.cfg ∧ t.pending = rest ∧ t.cnt = 0#32 ∧ t.samples.wf t.cfg.n = true := by
  have hs : ∀ w, i ≠ .word (.sample w) := by
    rintro w rfl
    simp [isBoundary, decode] at hi
  rcases step_cases h hs with ⟨-, -, ⟨d, x, he⟩ | he⟩ | ⟨hb, -⟩ | ⟨hb, -⟩
  · exact ⟨_, he, rfl, rfl, rfl, Memory.wf_ofWords _ d⟩
  · exact ⟨_, he, rfl, rfl, rfl, hwf⟩
  · simp [hb] at hi
  · simp [hb] at hi

/-! ## Runs -/

/-- What every step keeps, every run keeps. -/
theorem run_induction {P : State → Prop} (hstep : ∀ s t, P s → step s = .next t → P t) {k : Nat} {s t : State}
    (h : Host.Core.run Sys2Proof.core k s = .next t) (hs : P s) : P t := by
  induction k generalizing s with
  | zero =>
    obtain rfl : s = t := Host.Outcome.next.inj h
    exact hs
  | succ k ih =>
    cases hstep' : step s with
    | next s' => exact ih (run_of_step hstep' ▸ h) (hstep s s' hs hstep')
    | fault r => cases r
    | refused r => simp [run_succ, hstep'] at h

/-- A relation that steps keep side by side, runs keep side by side. -/
theorem run_simulation {R : State → State → Prop}
    (hstep : ∀ s u t, R s u → step s = .next t → ∃ v, step u = .next v ∧ R t v) {k : Nat} {s u t : State}
    (h : Host.Core.run Sys2Proof.core k s = .next t) (hs : R s u) :
    ∃ v, Host.Core.run Sys2Proof.core k u = .next v ∧ R t v := by
  induction k generalizing s u with
  | zero =>
    obtain rfl : s = t := Host.Outcome.next.inj h
    exact ⟨u, rfl, hs⟩
  | succ k ih =>
    cases hstep' : step s with
    | next s' =>
      obtain ⟨u', hu, hr⟩ := hstep s u s' hs hstep'
      rw [run_of_step hu]
      exact ih (run_of_step hstep' ▸ h) hr
    | fault r => cases r
    | refused r => simp [run_succ, hstep'] at h

/-! ## The invariant -/

theorem State.cnt_lt_frameBytes {s : State} (hle : s.cnt.toNat ≤ s.cfg.frameBytes) (hne : s.cnt ≠ s.cfg.frameLen) :
    s.cnt.toNat < s.cfg.frameBytes :=
  lt_of_le_of_ne hle (mt s.cnt_eq_frameLen_iff.2 hne)

theorem State.inv_powerOn (c : Config) : (State.powerOn c).Inv := ⟨Nat.zero_le _, rfl⟩

/-- Every step keeps the invariant and the build. -/
theorem step_keeps_inv {s t : State} (hs : s.Inv) (h : step s = .next t) : t.Inv ∧ t.cfg = s.cfg := by
  obtain ⟨hle, hwf⟩ := hs
  cases hp : s.pending with
  | nil =>
    obtain rfl : s = t := Host.Outcome.next.inj ((step_waiting hp).symm.trans h)
    exact ⟨⟨hle, hwf⟩, rfl⟩
  | cons i rest =>
    rcases step_cases hp (not_sample_of_step hp h) with
      ⟨hb, -⟩ | ⟨-, b, -, hne, r, he⟩ | ⟨-, -, r, he⟩
    · obtain ⟨t', ht', hcfg, -, hcnt, hwf'⟩ := step_boundary hp hb hwf
      obtain rfl : t' = t := Host.Outcome.next.inj (ht'.symm.trans h)
      exact ⟨⟨by simp [hcnt], hwf'⟩, hcfg⟩
    · obtain rfl : ((s.withPending rest).acceptByte b).respond r = t := Host.Outcome.next.inj (he.symm.trans h)
      have hlt := State.cnt_lt_frameBytes hle hne
      have hcnt := State.acceptByte_toNat_cnt (s := s.withPending rest) (b := b) hlt
      exact ⟨⟨hcnt.trans_le hlt, State.acceptByte_wf hwf⟩, rfl⟩
    · obtain rfl : (s.withPending rest).respond r = t := Host.Outcome.next.inj (he.symm.trans h)
      exact ⟨⟨hle, hwf⟩, rfl⟩

/-! ## What an accepted byte commits -/

theorem State.commits_iff (s : State) : s.commits = true ↔ s.cnt.toNat % 4 = 3 := by
  simp [State.commits, State.byteLane]

/-- The fourth byte of word `k` commits the word assembled to `S[k]`; every other byte leaves `S[k]`
(40_frame_input.md R83). -/
theorem State.read_acceptByte {s : State} (b : Byte) (hwf : s.samples.wf s.cfg.n = true) {k : Nat} (hk : k < s.cfg.n) :
    (s.acceptByte b).samples.read k =
      if s.cnt.toNat = 4 * k + 3 then (s.acceptByte b).acc else s.samples.read k := by
  have hw : s.wordIndex = s.cnt.toNat / 4 := rfl
  simp only [State.acceptByte, s.commits_iff]
  split
  · rw [Memory.read_write hwf]
    exact if_congr (by omega) rfl rfl
  · rw [if_neg (by omega)]

/-- The fourth byte past the samples commits the word assembled to `ET` (40_frame_input.md R83). -/
theorem State.et_acceptByte {s : State} (b : Byte) (h : s.cnt.toNat = 4 * s.cfg.n + 3) :
    (s.acceptByte b).et = (s.acceptByte b).acc := by
  have hw : s.wordIndex = s.cnt.toNat / 4 := rfl
  simp only [State.acceptByte, s.commits_iff]
  exact if_pos (by omega)

/-! ## Count and reset -/

/-- Settles O14: each of the things a step can do with the next input moves `CNT` as R22 says. -/
theorem onlyPushAndBoundariesChangeCount : Obligations.OnlyPushAndBoundariesChangeCount := by
  intro s t hs h
  obtain ⟨⟨hle, -⟩, hcfg⟩ := step_keeps_inv hs h
  refine ⟨hcfg ▸ hle, fun hp => ?_, fun i rest hp => ?_⟩
  · obtain rfl : s = t := Host.Outcome.next.inj ((step_waiting hp).symm.trans h)
    rfl
  · rcases step_cases hp (not_sample_of_step hp h) with
      ⟨hb, ho, -⟩ | ⟨hb, b, ho, hne, r, he⟩ | ⟨hb, ho, r, he⟩
    · obtain ⟨t', ht', -, -, hcnt, -⟩ := step_boundary hp hb hs.2
      obtain rfl : t' = t := Host.Outcome.next.inj (ht'.symm.trans h)
      simp [hb, ho, hcnt]
    · obtain rfl : ((s.withPending rest).acceptByte b).respond r = t := Host.Outcome.next.inj (he.symm.trans h)
      have hcnt := State.acceptByte_toNat_cnt (s := s.withPending rest) (b := b) (State.cnt_lt_frameBytes hs.1 hne)
      exact ⟨by simp [hb], fun _ _ _ => hcnt, fun _ _ heq => absurd heq hne, by simp [ho]⟩
    · obtain rfl : (s.withPending rest).respond r = t := Host.Outcome.next.inj (he.symm.trans h)
      exact ⟨by simp [hb], fun b hob hne => absurd (ho b hob) hne, fun _ _ _ => rfl, fun _ _ => rfl⟩

/-- Settles O15: power-on meets the invariant and every step keeps it. -/
theorem countNeverExceedsFrameLen : Obligations.CountNeverExceedsFrameLen := by
  intro c ins k t h
  have hstep : ∀ s t : State, s.Inv ∧ s.cfg = c → step s = .next t → t.Inv ∧ t.cfg = c := by
    rintro s t ⟨hs, rfl⟩ h
    exact step_keeps_inv hs h
  obtain ⟨⟨hle, -⟩, rfl⟩ := run_induction hstep h ⟨State.inv_powerOn c, rfl⟩
  exact hle

/-- Before the first byte the SDX is in RECV: FRAME_LEN is not 0. -/
theorem State.rdy_eq_false_of_cnt_zero {s : State} (h : s.cnt = 0#32) : s.rdy = false := by
  rw [State.rdy_eq, decide_eq_false_iff_not, s.cnt_eq_frameLen_iff, h]
  simp [Config.frameBytes]

theorem State.phase_eq_recv_of_cnt_zero {s : State} (h : s.cnt = 0#32) : s.phase = .recv := by
  simp [State.phase, State.rdy_eq_false_of_cnt_zero h]

/-- Settles O35: power-on and a reset event leave the values of R34. -/
theorem resetLeavesStatedValues : Obligations.ResetLeavesStatedValues := by
  constructor
  · intro c
    exact ⟨rfl, rfl, State.rdy_eq_false_of_cnt_zero rfl, State.phase_eq_recv_of_cnt_zero rfl⟩
  · intro s draws et rest hp
    refine ⟨_, step_reset hp, rfl, rfl, State.rdy_eq_false_of_cnt_zero rfl, State.phase_eq_recv_of_cnt_zero rfl,
      fun k w hk hw => ?_, rfl, rfl, rfl, rfl⟩
    calc (Memory.ofWords s.cfg.n draws).read k = draws.getD k Memory.unlisted := Memory.read_ofWords draws hk
      _ = w := by simp [List.getD, hw]

end Sys2Proof.Machine

namespace Sys2Proof.Machine

/-! ## What reset leaves is never observed -/

/-- The host cannot tell the two states apart, now or later: they differ at most in what `S` and `ET` hold of words not yet
committed in this frame, and have returned the same responses `out` since they had returned `p` and `q`. -/
structure LookAlike (p q : List Response) (s u : State) : Prop where
  cfg : u.cfg = s.cfg
  cnt : u.cnt = s.cnt
  acc : u.acc = s.acc
  pending : u.pending = s.pending
  cnt_le : s.cnt.toNat ≤ s.cfg.frameBytes
  wf_left : s.samples.wf s.cfg.n = true
  wf_right : u.samples.wf s.cfg.n = true
  committed : ∀ k < s.cfg.n, 4 * k + 3 < s.cnt.toNat → u.samples.read k = s.samples.read k
  et : s.cnt.toNat = s.cfg.frameBytes → u.et = s.et
  responses : ∃ out, s.responses = p ++ out ∧ u.responses = q ++ out

namespace LookAlike

variable {p q : List Response} {s u : State}

theorem rdy_eq (h : LookAlike p q s u) : u.rdy = s.rdy := by
  rw [State.rdy_eq, State.rdy_eq, h.cfg, h.cnt]

theorem statusResponse_eq (h : LookAlike p q s u) : statusResponse u = statusResponse s := by
  simp only [statusResponse, h.rdy_eq, h.cnt]

theorem sampleResponse_eq (h : LookAlike p q s u) (w : Word) (toff : F64) :
    sampleResponse u w toff = sampleResponse s w toff := by
  simp only [sampleResponse, h.rdy_eq, h.cnt]

theorem withPending (h : LookAlike p q s u) (ins : List Input) :
    LookAlike p q (s.withPending ins) (u.withPending ins) where
  cfg := h.cfg
  cnt := h.cnt
  acc := h.acc
  pending := rfl
  cnt_le := h.cnt_le
  wf_left := h.wf_left
  wf_right := h.wf_right
  committed := h.committed
  et := h.et
  responses := h.responses

theorem respond (h : LookAlike p q s u) (r : Response) : LookAlike p q (s.respond r) (u.respond r) where
  cfg := h.cfg
  cnt := h.cnt
  acc := h.acc
  pending := h.pending
  cnt_le := h.cnt_le
  wf_left := h.wf_left
  wf_right := h.wf_right
  committed := h.committed
  et := h.et
  responses := by
    obtain ⟨out, hs, hu⟩ := h.responses
    exact ⟨out ++ [r], by simp [hs], by simp [hu]⟩

/-- With no byte accepted no word is committed, so any two stores and any two `ET` look alike. -/
theorem of_cnt_zero (hcfg : u.cfg = s.cfg) (hs : s.cnt = 0#32) (hu : u.cnt = 0#32) (hacc : u.acc = s.acc)
    (hp : u.pending = s.pending) (hwfs : s.samples.wf s.cfg.n = true) (hwfu : u.samples.wf s.cfg.n = true)
    (hr : ∃ out, s.responses = p ++ out ∧ u.responses = q ++ out) : LookAlike p q s u where
  cfg := hcfg
  cnt := hu.trans hs.symm
  acc := hacc
  pending := hp
  cnt_le := by simp [hs]
  wf_left := hwfs
  wf_right := hwfu
  committed := by simp [hs]
  et := by simp [hs, Config.frameBytes]
  responses := hr

theorem clearFrame (h : LookAlike p q s u) : LookAlike p q s.clearFrame u.clearFrame :=
  of_cnt_zero h.cfg rfl rfl rfl h.pending h.wf_left h.wf_right h.responses

theorem resetTo (h : LookAlike p q s u) (d e : List Word) (x y : Word) :
    LookAlike p q (s.resetTo d x) (u.resetTo e y) :=
  of_cnt_zero h.cfg rfl rfl rfl h.pending (Memory.wf_ofWords _ d) (h.cfg ▸ Memory.wf_ofWords _ e) h.responses

/-- Both states commit the same word with the same byte: `ACC` is the same in both. -/
theorem acceptByte (h : LookAlike p q s u) (hne : s.cnt ≠ s.cfg.frameLen) (b : Byte) :
    LookAlike p q (s.acceptByte b) (u.acceptByte b) := by
  have hlt := State.cnt_lt_frameBytes h.cnt_le hne
  have hcnt := State.acceptByte_toNat_cnt (b := b) hlt
  have hacc : (u.acceptByte b).acc = (s.acceptByte b).acc := by
    simp [State.byteLane, h.acc, h.cnt]
  have hwfu : u.samples.wf u.cfg.n = true := h.cfg ▸ h.wf_right
  refine
    { cfg := h.cfg, cnt := by simp [h.cnt], acc := hacc, pending := h.pending, cnt_le := hcnt.trans_le hlt
      wf_left := State.acceptByte_wf h.wf_left, wf_right := ?_, committed := ?_, et := ?_, responses := h.responses }
  · simpa [h.cfg] using State.acceptByte_wf (b := b) hwfu
  · intro k hk hk4
    rw [hcnt] at hk4
    rw [State.read_acceptByte b h.wf_left hk, State.read_acceptByte b hwfu (h.cfg ▸ hk), h.cnt, hacc]
    split
    · rfl
    · exact h.committed k hk (by omega)
  · intro hfull
    have hlen : s.cfg.frameBytes = 4 * s.cfg.n + 4 := rfl
    rw [hcnt, State.acceptByte_cfg] at hfull
    have hs : s.cnt.toNat = 4 * s.cfg.n + 3 := by omega
    have hu : u.cnt.toNat = 4 * u.cfg.n + 3 := by rw [h.cnt, h.cfg, hs]
    rw [State.et_acceptByte b hs, State.et_acceptByte b hu, hacc]

/-- Every operation answers both states alike: READ_SAMPLE alone reads `S` and `ET`, and only once all of the frame is
committed. -/
theorem exec_lookAlike (h : LookAlike p q s u) {i : Instr} {t : State} (ht : exec i s = .next t) :
    ∃ v, exec i u = .next v ∧ LookAlike p q t v := by
  have same : ∀ r, exec i s = .next (s.respond r) → exec i u = .next (u.respond r) →
      ∃ v, exec i u = .next v ∧ LookAlike p q t v := by
    intro r hs hu
    obtain rfl : s.respond r = t := Host.Outcome.next.inj (hs.symm.trans ht)
    exact ⟨_, hu, h.respond r⟩
  cases i with
  | clear =>
    obtain rfl : s.clearFrame.respond { st := .ok } = t := Host.Outcome.next.inj ht
    exact ⟨_, rfl, h.clearFrame.respond _⟩
  | pushByte b =>
    by_cases hc : s.cnt = s.cfg.frameLen
    · exact same _ (exec_pushByte_ready hc) (exec_pushByte_ready (by rw [h.cnt, h.cfg, hc]))
    · have ha := h.acceptByte hc b
      rw [exec_pushByte_recv hc] at ht
      obtain rfl := Host.Outcome.next.inj ht
      refine ⟨_, exec_pushByte_recv (by rwa [h.cnt, h.cfg]), ?_⟩
      rw [ha.statusResponse_eq]
      exact ha.respond _
  | readSample j =>
    by_cases hc : s.cnt = s.cfg.frameLen
    · have hcu : u.cnt = u.cfg.frameLen := by rw [h.cnt, h.cfg, hc]
      by_cases hj : s.cfg.n ≤ j.toNat
      · exact same _ (exec_readSample_outOfRange hc hj) (exec_readSample_outOfRange hcu (h.cfg ▸ hj))
      · have hfull := s.cnt_eq_frameLen_iff.1 hc
        have hlen : s.cfg.frameBytes = 4 * s.cfg.n + 4 := rfl
        refine same _ (exec_readSample_held hc (not_le.1 hj)) ?_
        rw [exec_readSample_held hcu (h.cfg ▸ not_le.1 hj), h.sampleResponse_eq, h.cfg, h.et hfull,
          h.committed _ (not_le.1 hj) (by omega)]
    · exact same _ (exec_readSample_recv hc) (exec_readSample_recv (by rwa [h.cnt, h.cfg]))
  | readStatus => exact same _ rfl (congrArg (fun r => reply r u) h.statusResponse_eq)
  | extract w => exact same _ rfl (congrArg (fun r => reply r u) (h.sampleResponse_eq w 0#64))
  | illegalOp5 => exact same _ rfl rfl
  | illegalOp67 op => exact same _ rfl rfl
  | sampleWord w => cases ht

theorem step_lookAlike (h : LookAlike p q s u) {t : State} (ht : step s = .next t) :
    ∃ v, step u = .next v ∧ LookAlike p q t v := by
  cases hp : s.pending with
  | nil =>
    obtain rfl : s = t := Host.Outcome.next.inj ((step_waiting hp).symm.trans ht)
    exact ⟨u, step_waiting (h.pending.trans hp), h⟩
  | cons i rest =>
    have hpu := h.pending.trans hp
    cases i with
    | word w =>
      rw [step_word hp] at ht
      rw [step_word hpu]
      exact (h.withPending rest).exec_lookAlike ht
    | reset d x =>
      obtain rfl : (s.withPending rest).resetTo d x = t :=
        Host.Outcome.next.inj ((step_reset hp).symm.trans ht)
      exact ⟨_, step_reset hpu, (h.withPending rest).resetTo d d x x⟩

end LookAlike

/-- Settles O36: two resets leave states that look alike, and every run keeps them so. -/
theorem resetContentsNeverObserved : Obligations.ResetContentsNeverObserved := by
  intro s t d e x y ins k h
  cases k with
  | zero =>
    obtain rfl := Host.Outcome.next.inj h
    exact ⟨_, rfl, rfl, rfl, rfl, rfl⟩
  | succ k =>
    have hlook : LookAlike s.responses s.responses ((s.withPending ins).resetTo d x) ((s.withPending ins).resetTo e y) :=
      .of_cnt_zero rfl rfl rfl rfl rfl (Memory.wf_ofWords _ d) (Memory.wf_ofWords _ e) ⟨[], by simp, by simp⟩
    rw [run_of_step (step_reset rfl)] at h
    obtain ⟨v, hv, hr⟩ := run_simulation (fun _ _ _ hr => hr.step_lookAlike) h hlook
    obtain ⟨out, ht, hu⟩ := hr.responses
    exact ⟨v, (run_of_step (step_reset rfl)).trans hv, hu.trans ht.symm, hr.cnt, hr.acc, hr.rdy_eq⟩

/-! ## The bytes accepted determine the frame state -/

/-- The four bytes of a word, where they stand in the string, are its LE32 (00_scope.md R12). -/
theorem le32_eq_of_bytes {f : List Byte} {p : Nat} {w : Word} (h : ∀ j < 4, f[p + j]? = some (getByte w j)) :
    le32 f p = w := by
  have hd : ∀ j < 4, f.getD (p + j) 0#8 = getByte w j := fun j hj => by simp [List.getD, h j hj]
  have h0 : f.getD p 0#8 = getByte w 0 := hd 0 (by omega)
  rw [le32, hd 3 (by omega), hd 2 (by omega), hd 1 (by omega), h0]
  exact word_of_bytes w

/-- A byte appended does not change the words before it. -/
theorem le32_append {f : List Byte} {p : Nat} (h : p + 3 < f.length) (b : Byte) : le32 (f ++ [b]) p = le32 f p := by
  have hd : ∀ i ≤ p + 3, (f ++ [b]).getD i 0#8 = f.getD i 0#8 := fun i hi =>
    List.getD_append _ _ _ _ (by omega)
  simp only [le32, hd _ (Nat.le_refl _), hd (p + 2) (by omega), hd (p + 1) (by omega), hd p (by omega)]

theorem offeredBytes_cons (i : Input) (ins : List Input) :
    offeredBytes (i :: ins) = (offeredByte i).toList ++ offeredBytes ins := by
  cases h : offeredByte i <;> simp [offeredBytes, h]

/-- Cutting a string at `n` before more is appended makes no difference to its first `n` elements. -/
theorem take_take_append {α : Type} (n : Nat) (l m : List α) : (l.take n ++ m).take n = (l ++ m).take n := by
  have hrest : n - min n l.length = n - l.length := by omega
  simp [List.take_append, hrest]

/-- The state of the receiver that has accepted the bytes `f` of a frame (10_state.md R32). -/
structure HoldsBytes (s : State) (f : List Byte) : Prop where
  cnt : s.cnt.toNat = f.length
  length_le : f.length ≤ s.cfg.frameBytes
  wf : s.samples.wf s.cfg.n = true
  word : ∀ k < s.cfg.n, 4 * k + 3 < f.length → s.samples.read k = le32 f (4 * k)
  et : f.length = s.cfg.frameBytes → s.et = le32 f (4 * s.cfg.n)
  lanes : ∀ j < f.length % 4, f[4 * (f.length / 4) + j]? = some (getByte s.acc j)

namespace HoldsBytes

variable {s : State} {f : List Byte}

theorem of_cnt_zero (h : s.cnt = 0#32) (hwf : s.samples.wf s.cfg.n = true) : HoldsBytes s [] where
  cnt := by simp [h]
  length_le := Nat.zero_le _
  wf := hwf
  word := by simp
  et := by simp [Config.frameBytes]
  lanes := by simp

theorem respond (h : HoldsBytes s f) (r : Response) : HoldsBytes (s.respond r) f :=
  ⟨h.cnt, h.length_le, h.wf, h.word, h.et, h.lanes⟩

theorem withPending (h : HoldsBytes s f) (ins : List Input) : HoldsBytes (s.withPending ins) f :=
  ⟨h.cnt, h.length_le, h.wf, h.word, h.et, h.lanes⟩

theorem ready_iff (h : HoldsBytes s f) : s.cnt = s.cfg.frameLen ↔ f.length = s.cfg.frameBytes := by
  rw [s.cnt_eq_frameLen_iff, h.cnt]

/-- The new byte stands in `ACC` beside the earlier bytes of its word. -/
theorem getByte_acceptByte (h : HoldsBytes s f) (b : Byte) {j : Nat} (hj : j ≤ f.length % 4) :
    (f ++ [b])[4 * (f.length / 4) + j]? = some (getByte (s.acceptByte b).acc j) := by
  rw [State.acceptByte_acc, State.byteLane, h.cnt, getByte_setByte (by omega)]
  split
  · subst j
    rw [Nat.div_add_mod]
    simp
  · rw [List.getElem?_append_left (by omega)]
    exact h.lanes j (by omega)

/-- The fourth byte of word `k` leaves in `ACC` the word that the bytes from `4 * k` on are. -/
theorem le32_acceptByte (h : HoldsBytes s f) (b : Byte) {k : Nat} (hk : f.length = 4 * k + 3) :
    le32 (f ++ [b]) (4 * k) = (s.acceptByte b).acc := by
  apply le32_eq_of_bytes
  intro j hj
  have hb := h.getByte_acceptByte b (j := j) (by omega)
  rwa [show f.length / 4 = k by omega] at hb

theorem acceptByte (h : HoldsBytes s f) (hlt : f.length < s.cfg.frameBytes) (b : Byte) :
    HoldsBytes (s.acceptByte b) (f ++ [b]) := by
  have hlen : (f ++ [b]).length = f.length + 1 := by simp
  refine { cnt := ?_, length_le := hlen.trans_le hlt, wf := State.acceptByte_wf h.wf, word := ?_, et := ?_, lanes := ?_ }
  · rw [State.acceptByte_toNat_cnt (h.cnt.trans_lt hlt), h.cnt, hlen]
  · intro k hk hk4
    rw [State.read_acceptByte b h.wf hk, h.cnt]
    split
    · exact (h.le32_acceptByte b ‹_›).symm
    · rw [le32_append (by omega)]
      exact h.word k hk (by omega)
  · intro hfull
    have hN : f.length = 4 * s.cfg.n + 3 := by
      simpa [Config.frameBytes] using hfull
    rw [State.et_acceptByte b (h.cnt.trans hN), State.acceptByte_cfg, h.le32_acceptByte b hN]
  · intro j hj
    rw [hlen] at hj ⊢
    rw [show (f.length + 1) / 4 = f.length / 4 by omega]
    exact h.getByte_acceptByte b (by omega)

/-- A request within the frame adds the byte it offers, as long as the frame has room. -/
theorem step_request (h : HoldsBytes s f) {i : Input} {rest : List Input} (hp : s.pending = i :: rest)
    (hreq : isRequest i = true) (hb : isBoundary i = false) :
    ∃ t, step s = .next t ∧ t.cfg = s.cfg ∧ t.pending = rest ∧
      HoldsBytes t ((f ++ (offeredByte i).toList).take s.cfg.frameBytes) := by
  rcases step_cases hp (not_sample_of_isRequest hreq) with
    ⟨hb', -⟩ | ⟨-, b, ho, hne, r, he⟩ | ⟨-, ho, r, he⟩
  · simp [hb] at hb'
  · have hlt : f.length < s.cfg.frameBytes := lt_of_le_of_ne h.length_le (mt h.ready_iff.2 hne)
    refine ⟨_, he, rfl, rfl, ?_⟩
    rw [ho, Option.toList_some, List.take_of_length_le (by simpa using hlt)]
    exact ((h.withPending rest).acceptByte hlt b).respond r
  · refine ⟨_, he, rfl, rfl, ?_⟩
    have htake : (f ++ (offeredByte i).toList).take s.cfg.frameBytes = f := by
      cases hoi : offeredByte i with
      | none => simpa using h.length_le
      | some b => exact List.take_left' (h.ready_iff.1 (ho b hoi))
    rw [htake]
    exact (h.withPending rest).respond r

/-- Requests within the frame add the bytes they offer, up to FRAME_LEN of them (40_frame_input.md R82). -/
theorem runInputs_request (h : HoldsBytes s f) {ins : List Input} (hins : WithinFrame ins) :
    ∃ t, runInputs ins s = .next t ∧ t.cfg = s.cfg ∧
      HoldsBytes t ((f ++ offeredBytes ins).take s.cfg.frameBytes) := by
  induction ins generalizing s f with
  | nil =>
    refine ⟨_, runInputs_nil s, rfl, ?_⟩
    rw [offeredBytes, List.filterMap_nil, List.append_nil, List.take_of_length_le h.length_le]
    exact h.withPending []
  | cons i ins ih =>
    obtain ⟨⟨hreq, hb⟩, hins⟩ := List.forall_mem_cons.1 hins
    obtain ⟨s', hs', hcfg, hp, h'⟩ := (h.withPending (i :: ins)).step_request rfl hreq hb
    obtain ⟨t, ht, htcfg, hheld⟩ := ih h' hins
    refine ⟨t, (runInputs_cons hs' hp).trans ht, htcfg.trans hcfg, ?_⟩
    rw [hcfg] at hheld
    rwa [offeredBytes_cons, ← List.append_assoc, ← take_take_append]

end HoldsBytes

/-- From a boundary on, the bytes offered up to FRAME_LEN are the bytes held (10_state.md R32). -/
theorem runInputs_boundary {s : State} {first : Input} {ins : List Input} (hwf : s.samples.wf s.cfg.n = true)
    (hfirst : isBoundary first = true) (hins : WithinFrame ins) :
    ∃ t, runInputs (first :: ins) s = .next t ∧ t.cfg = s.cfg ∧
      HoldsBytes t ((offeredBytes ins).take s.cfg.frameBytes) := by
  obtain ⟨s', hs', hcfg, hp, hcnt, hwf'⟩ := step_boundary (s := s.withPending (first :: ins)) rfl hfirst hwf
  obtain ⟨t, ht, htcfg, hheld⟩ := (HoldsBytes.of_cnt_zero hcnt hwf').runInputs_request hins
  rw [hcfg] at htcfg hheld
  exact ⟨t, (runInputs_cons hs' hp).trans ht, htcfg, hheld⟩

/-- Settles O41: the clauses are those of `HoldsBytes`, which every request within the frame extends. -/
theorem acceptedBytesDetermineState : Obligations.AcceptedBytesDetermineState := by
  intro s first ins hwf hfirst hins
  obtain ⟨t, ht, hcfg, h⟩ := runInputs_boundary hwf hfirst hins
  refine ⟨t, ht, ?_⟩
  rw [← hcfg] at h ⊢
  exact ⟨rfl, h.cnt, h.word, fun hfull => ⟨t.phase_eq_ready.2 (h.ready_iff.2 hfull), h.et hfull⟩,
    fun hlt => t.phase_eq_recv.2 (mt h.ready_iff.1 hlt.ne), h.lanes⟩

end Sys2Proof.Machine

namespace Sys2Proof

/-! ## Requests and their operations -/

namespace Request

@[simp] theorem op_make (op : OpCode) (data : Word) : (make op data).op = op := by
  apply BitVec.eq_of_getLsbD_eq
  intro i hi
  have hdata : ¬ 32 + i < 32 := by omega
  rw [getLsbD_op, getLsbD_make, if_neg hdata, Nat.add_sub_cancel_left, decide_eq_true hi, Bool.true_and]

@[simp] theorem data_make (op : OpCode) (data : Word) : (make op data).data = data := by
  apply BitVec.eq_of_getLsbD_eq
  intro i hi
  rw [getLsbD_data, getLsbD_make, if_pos hi, decide_eq_true hi, Bool.true_and]

@[simp] theorem make_op_data (r : Request) : make r.op r.data = r := by
  apply BitVec.eq_of_getLsbD_eq
  intro i hi
  rw [getLsbD_make]
  split
  case isTrue h => rw [getLsbD_data, decide_eq_true h, Bool.true_and]
  case isFalse h =>
    have hop : i - 32 < 3 := by omega
    have hi32 : 32 + (i - 32) = i := by omega
    rw [getLsbD_op, hi32, decide_eq_true hop, Bool.true_and]

theorem toNat_make (op : OpCode) (data : Word) : (make op data).toNat = op.toNat * 2 ^ 32 + data.toNat := by
  calc (make op data).toNat = op.toNat <<< 32 ||| data.toNat := BitVec.toNat_append op data
    _ = op.toNat <<< 32 + data.toNat := (Nat.shiftLeft_add_eq_or_of_lt data.isLt op.toNat).symm
    _ = op.toNat * 2 ^ 32 + data.toNat := by rw [Nat.shiftLeft_eq]

end Request

section
variable (data : Word)

/-! The decoder reads a request through `op` and `data` alone, so `op_make` and `data_make` give each row of
30_encoding.md R62 with its operand (R64). -/

@[simp] theorem decode_make_clear : decode (.request (Request.make 0#3 data)) = .clear := by
  simp [decode, decodeRequest]

@[simp] theorem decode_make_pushByte :
    decode (.request (Request.make 1#3 data)) = .pushByte (BitVec.extractLsb' 0 8 data) := by
  simp [decode, decodeRequest]

@[simp] theorem decode_make_readSample : decode (.request (Request.make 2#3 data)) = .readSample data := by
  simp [decode, decodeRequest]

@[simp] theorem decode_make_readStatus : decode (.request (Request.make 3#3 data)) = .readStatus := by
  simp [decode, decodeRequest]

@[simp] theorem decode_make_extract : decode (.request (Request.make 4#3 data)) = .extract data := by
  simp [decode, decodeRequest]

@[simp] theorem decode_make_illegalOp5 : decode (.request (Request.make 5#3 data)) = .illegalOp5 := by
  simp [decode, decodeRequest]

/-- The row ILLEGAL_OP6_7 keeps its op code. -/
theorem decode_make_illegalOp67 {op : OpCode} (h : op = 6#3 ∨ op = 7#3) :
    decode (.request (Request.make op data)) = .illegalOp67 op := by
  rcases h with rfl | rfl <;> simp [decode, decodeRequest]

end

end Sys2Proof

namespace Sys2Proof.Machine

/-- Settles O4: `OP` and `DATA` of a request are its bits from bit 32 on and those below. -/
theorem requestIsOpThenData : Obligations.RequestIsOpThenData := fun op data r =>
  ⟨Request.op_make op data, Request.data_make op data, Request.toNat_make op data, Request.make_op_data r⟩

/-- Settles O5: one decoding lemma per op code, and the worked encodings by evaluation. -/
theorem requestUsesItsData : Obligations.RequestUsesItsData :=
  ⟨fun data => ⟨decode_make_clear data, decode_make_pushByte data, decode_make_readSample data,
    decode_make_readStatus data, decode_make_extract data, decode_make_illegalOp5 data,
    decode_make_illegalOp67 data (.inl rfl), decode_make_illegalOp67 data (.inr rfl)⟩, rfl, rfl, rfl⟩

end Sys2Proof.Machine

namespace Sys2Proof.Machine

/-! ## READ_STATUS -/

theorem exec_readStatus (s : State) : exec .readStatus s = .next (s.respond (statusResponse s)) := rfl

theorem statusResponse_of_cnt_zero {s : State} (h : s.cnt = 0#32) : statusResponse s = { st := .ok } := by
  simp [statusResponse, State.rdy_eq_false_of_cnt_zero h, h]

theorem statusResponse_of_ready {s : State} (h : s.cnt = s.cfg.frameLen) :
    statusResponse s = { st := .ok, rdy := true, cnt := s.cfg.frameLen } := by
  simp [statusResponse, State.rdy_eq, h]

/-- Returning a response leaves what READ_STATUS reports. -/
@[simp] theorem statusResponse_respond (r : Response) (s : State) : statusResponse (s.respond r) = statusResponse s :=
  rfl

theorem State.respond_inj {r r' : Response} {s : State} (h : s.respond r = s.respond r') : r = r' := by
  simpa using congrArg State.responses h

/-- Settles O13: READ_STATUS returns `statusResponse` and nothing else, and a response returned leaves
`statusResponse` as it was. -/
theorem readStatusReportsProgress : Obligations.ReadStatusReportsProgress := by
  refine ⟨fun s => rfl, fun s data rest hp => ?_, fun c => ?_, fun s hready => ?_, ?_⟩
  · rw [step_word hp, decode_make_readStatus]
    rfl
  · rw [exec_readStatus, statusResponse_of_cnt_zero rfl]
    rfl
  · rw [exec_readStatus, statusResponse_of_ready (s.phase_eq_ready.1 hready)]
    rfl
  · rintro s _ resp h rfl
    obtain rfl : statusResponse s = resp := State.respond_inj (Host.Outcome.next.inj h)
    refine (exec_readStatus (s.respond (statusResponse s))).trans ?_
    rw [statusResponse_respond]
    rfl

/-! ## Requests between the boundaries of a frame -/

/-- What requests for anything but CLEAR that offer the bytes `bs` make of the frame state (40_frame_input.md R86): the
bytes are counted as far as FRAME_LEN, and where none is offered nothing changes. The store need not be canonical. -/
structure ReceivesBytes (s t : State) (bs : List Byte) : Prop where
  cfg : t.cfg = s.cfg
  cnt : t.cnt.toNat = min (s.cnt.toNat + bs.length) s.cfg.frameBytes
  same : bs = [] → SameFrameState s t

namespace ReceivesBytes

variable {s t u : State} {bs bs' : List Byte}

theorem nil (hle : s.cnt.toNat ≤ s.cfg.frameBytes) (ins : List Input) : ReceivesBytes s (s.withPending ins) [] where
  cfg := rfl
  cnt := by simp [hle]
  same := fun _ => ⟨rfl, rfl, rfl, rfl, rfl⟩

theorem trans (h : ReceivesBytes s t bs) (h' : ReceivesBytes t u bs') : ReceivesBytes s u (bs ++ bs') where
  cfg := h'.cfg.trans h.cfg
  cnt := by
    rw [h'.cnt, h.cfg, h.cnt, List.length_append]
    omega
  same := by
    intro happ
    obtain ⟨rfl, rfl⟩ := List.append_eq_nil_iff.1 happ
    obtain ⟨hcfg, hcnt, hacc, hsamples, het⟩ := h.same rfl
    obtain ⟨hcfg', hcnt', hacc', hsamples', het'⟩ := h'.same rfl
    exact ⟨hcfg'.trans hcfg, hcnt'.trans hcnt, hacc'.trans hacc, hsamples'.trans hsamples, het'.trans het⟩

theorem cnt_le (h : ReceivesBytes s t bs) : t.cnt.toNat ≤ t.cfg.frameBytes := by
  rw [h.cnt, h.cfg]
  exact min_le_right _ _

theorem ready_iff (h : ReceivesBytes s t bs) :
    t.cnt = t.cfg.frameLen ↔ s.cfg.frameBytes ≤ s.cnt.toNat + bs.length := by
  rw [t.cnt_eq_frameLen_iff, h.cnt, h.cfg, min_eq_right_iff]

/-- READ_SAMPLE before the last byte of the frame (40_frame_input.md R86). -/
theorem readSample_notReady (h : ReceivesBytes s t bs) (hlt : s.cnt.toNat + bs.length < s.cfg.frameBytes) (i : Word) :
    exec (.readSample i) t = .next (t.respond (errorResponse .notReady)) :=
  exec_readSample_recv (mt h.ready_iff.1 (not_le.2 hlt))

end ReceivesBytes

section
variable {s : State} (hle : s.cnt.toNat ≤ s.cfg.frameBytes)
include hle

theorem step_receivesBytes {i : Input} {rest : List Input} (hp : s.pending = i :: rest) (hreq : isRequest i = true)
    (hb : isBoundary i = false) :
    ∃ t, step s = .next t ∧ t.pending = rest ∧ ReceivesBytes s t (offeredByte i).toList := by
  rcases step_cases hp (not_sample_of_isRequest hreq) with
    ⟨hb', -⟩ | ⟨-, b, ho, hne, r, he⟩ | ⟨-, ho, r, he⟩
  · simp [hb] at hb'
  · have hlt := State.cnt_lt_frameBytes hle hne
    have hcnt := State.acceptByte_toNat_cnt (s := s.withPending rest) (b := b) hlt
    rw [ho]
    exact ⟨_, he, rfl, rfl, hcnt.trans (min_eq_left hlt).symm, by simp⟩
  · refine ⟨_, he, rfl, rfl, ?_, fun _ => ⟨rfl, rfl, rfl, rfl, rfl⟩⟩
    cases hoi : offeredByte i with
    | none => exact (min_eq_left hle).symm
    | some b =>
      have hfull := s.cnt_eq_frameLen_iff.1 (ho b hoi)
      simp [hfull]

theorem runInputs_receivesBytes {ins : List Input} (hins : WithinFrame ins) :
    ∃ t, runInputs ins s = .next t ∧ ReceivesBytes s t (offeredBytes ins) := by
  induction ins generalizing s with
  | nil => exact ⟨_, runInputs_nil s, .nil hle []⟩
  | cons i ins ih =>
    obtain ⟨⟨hreq, hb⟩, hins⟩ := List.forall_mem_cons.1 hins
    obtain ⟨s', hs', hp, h⟩ := step_receivesBytes (s := s.withPending (i :: ins)) hle rfl hreq hb
    obtain ⟨t, ht, h'⟩ := ih h.cnt_le hins
    rw [offeredBytes_cons]
    exact ⟨t, (runInputs_cons hs' hp).trans ht, (ReceivesBytes.nil hle (i :: ins)).trans (h.trans h')⟩

end

/-- Settles O16: the clauses are those of `ReceivesBytes`, which holds of every request within the frame and composes. -/
theorem frameEndsWithItsLastByte : Obligations.FrameEndsWithItsLastByte := by
  intro s ins hle hins
  obtain ⟨t, ht, h⟩ := runInputs_receivesBytes hle hins
  refine ⟨t, ht, fun hlt => ⟨?_, ?_, h.readSample_notReady hlt⟩, fun hge => ?_, h.same⟩
  · exact t.phase_eq_recv.2 (mt h.ready_iff.1 (not_le.2 hlt))
  · exact h.cnt.trans (min_eq_left hlt.le)
  · exact t.phase_eq_ready.2 (h.ready_iff.2 hge)

/-! ## CLEAR -/

theorem exec_clear (s : State) : exec .clear s = .next (s.clearFrame.respond { st := .ok }) := rfl

theorem step_clear {s : State} {data : Word} {rest : List Input}
    (hp : s.pending = .word (.request (Request.make 0#3 data)) :: rest) :
    step s = .next ((s.withPending rest).clearFrame.respond { st := .ok }) := by
  rw [step_word hp, decode_make_clear, exec_clear]

/-- Settles O10: after CLEAR no byte has been counted, so the run that follows reaches FRAME_LEN with its FRAME_LEN-th
byte and not before. -/
theorem clearStartsNewFrame : Obligations.ClearStartsNewFrame := by
  refine ⟨fun s => rfl, fun s data rest hp => ?_, fun s data ins i hins hlt => ?_⟩
  · exact ⟨_, step_clear hp, rfl, State.rdy_eq_false_of_cnt_zero rfl, State.phase_eq_recv_of_cnt_zero rfl,
      fun _ _ => ⟨rfl, rfl⟩⟩
  · obtain ⟨t, ht, h⟩ := runInputs_receivesBytes (s := (s.withPending ins).clearFrame.respond { st := .ok })
      (Nat.zero_le _) hins
    exact ⟨t, (runInputs_cons (step_clear rfl) rfl).trans ht, h.readSample_notReady (by simpa using hlt) i⟩

/-! ## PUSH_BYTE: what an accepted byte changes and what it keeps -/

namespace State

variable {s : State}

theorem samples_acceptByte_commit (b : Byte) (h : s.cnt.toNat % 4 = 3 ∧ s.cnt.toNat / 4 < s.cfg.n) :
    (s.acceptByte b).samples = s.samples.write (s.cnt.toNat / 4) (s.acceptByte b).acc := by
  simp only [acceptByte, s.commits_iff]
  exact if_pos h

theorem samples_acceptByte_keep (b : Byte) (h : ¬(s.cnt.toNat % 4 = 3 ∧ s.cnt.toNat / 4 < s.cfg.n)) :
    (s.acceptByte b).samples = s.samples := by
  simp only [acceptByte, s.commits_iff]
  exact if_neg h

theorem et_acceptByte_keep (b : Byte) (h : s.cnt.toNat % 4 = 3 → s.cnt.toNat / 4 < s.cfg.n) :
    (s.acceptByte b).et = s.et := by
  simp only [acceptByte, s.commits_iff]
  exact if_neg fun hc => hc.2 (h hc.1)

/-- An accepted byte changes no word of `S` but the one it commits (40_frame_input.md R83). -/
theorem read_acceptByte_keep (b : Byte) (hwf : s.samples.wf s.cfg.n = true) {a : Nat}
    (ha : ¬(s.cnt.toNat % 4 = 3 ∧ a = s.cnt.toNat / 4 ∧ a < s.cfg.n)) :
    (s.acceptByte b).samples.read a = s.samples.read a := by
  by_cases hc : s.cnt.toNat % 4 = 3 ∧ s.cnt.toNat / 4 < s.cfg.n
  · have hne : a ≠ s.cnt.toNat / 4 := fun h => ha ⟨hc.1, h, h ▸ hc.2⟩
    rw [samples_acceptByte_commit b hc, Memory.read_write hwf, if_neg hne]
  · rw [samples_acceptByte_keep b hc]

/-- An accepted byte replaces the byte of `ACC` in its lane and keeps the other three (40_frame_input.md R83). -/
theorem getByte_acc_acceptByte (b : Byte) {j : Nat} (hj : j < 4) :
    getByte (s.acceptByte b).acc j = if j = s.cnt.toNat % 4 then b else getByte s.acc j :=
  getByte_setByte hj s.acc b

theorem rdy_acceptByte (b : Byte) (h : s.cnt.toNat < s.cfg.frameBytes) :
    (s.acceptByte b).rdy = decide (s.cnt.toNat + 1 = s.cfg.frameBytes) := by
  rw [rdy_eq, decide_eq_decide, cnt_eq_frameLen_iff, acceptByte_toNat_cnt h, acceptByte_cfg]

end State

/-! ## PUSH_BYTE: bytes pushed one after the other -/

theorem decode_pushRequest (b : Byte) : decode (.request (pushRequest b)) = .pushByte b := by
  have hbyte : BitVec.extractLsb' 0 8 (BitVec.setWidth 32 b) = b := by
    apply BitVec.eq_of_getLsbD_eq
    intro i hi
    have h32 : i < 32 := by omega
    simp [hi, h32]
  rw [pushRequest, decode_make_pushByte, hbyte]

/-- The request of a line PUSH below FRAME_LEN has its byte accepted. -/
theorem step_push {s : State} {b : Byte} {rest : List Input} (hp : s.pending = .word (.request (pushRequest b)) :: rest)
    (hne : s.cnt ≠ s.cfg.frameLen) :
    step s = .next (((s.withPending rest).acceptByte b).respond (statusResponse ((s.withPending rest).acceptByte b))) := by
  rw [step_word hp, decode_pushRequest]
  exact exec_pushByte_recv hne

theorem programInputs_push (b : Byte) (p : List Line) :
    programInputs (.push b :: p) = .word (.request (pushRequest b)) :: programInputs p :=
  programInputs_cons (.push b) p

/-- The state after the frame bytes `bs`, all of them accepted. -/
def State.acceptBytes : List Byte → State → State
  | [], s => s
  | b :: bs, s => State.acceptBytes bs (s.acceptByte b)

@[simp] theorem State.acceptBytes_cfg (bs : List Byte) (s : State) : (s.acceptBytes bs).cfg = s.cfg := by
  induction bs generalizing s with
  | nil => rfl
  | cons b bs ih => exact ih (s.acceptByte b)

/-- Where `k + 1` bytes have room, `k` have room after the first of them. -/
theorem State.acceptByte_room {s : State} (b : Byte) {k : Nat} (h : s.cnt.toNat + (k + 1) ≤ s.cfg.frameBytes) :
    (s.acceptByte b).cnt.toNat + k ≤ (s.acceptByte b).cfg.frameBytes := by
  rw [acceptByte_toNat_cnt (by omega), acceptByte_cfg]
  omega

theorem State.acceptBytes_toNat_cnt {bs : List Byte} {s : State} (h : s.cnt.toNat + bs.length ≤ s.cfg.frameBytes) :
    (s.acceptBytes bs).cnt.toNat = s.cnt.toNat + bs.length := by
  induction bs generalizing s with
  | nil => rfl
  | cons b bs ih =>
    rw [List.length_cons] at h ⊢
    have hcnt : (s.acceptByte b).cnt.toNat = s.cnt.toNat + 1 := acceptByte_toNat_cnt (by omega)
    rw [acceptBytes, ih (acceptByte_room b h), hcnt]
    omega

theorem State.acceptBytes_wf (bs : List Byte) {s : State} (h : s.samples.wf s.cfg.n = true) :
    (s.acceptBytes bs).samples.wf s.cfg.n = true := by
  induction bs generalizing s with
  | nil => exact h
  | cons b bs ih => exact ih (s := s.acceptByte b) (acceptByte_wf h)

/-- What a byte makes of the frame state depends on the frame state alone. -/
theorem SameFrameState.acceptByte {s t : State} (h : SameFrameState s t) (b : Byte) :
    SameFrameState (s.acceptByte b) (t.acceptByte b) := by
  obtain ⟨hcfg, hcnt, hacc, hsamples, het⟩ := h
  simp [SameFrameState, State.acceptByte, State.commits, State.byteLane, State.wordIndex, hcfg, hcnt, hacc, hsamples, het]

/-- Lines PUSH below FRAME_LEN have their bytes accepted; the responses between them are no part of the frame state. -/
theorem runInputs_push {bs : List Byte} {s u : State} (hsame : SameFrameState s u)
    (h : s.cnt.toNat + bs.length ≤ s.cfg.frameBytes) :
    ∃ t, runInputs (programInputs (bs.map .push)) u = .next t ∧ SameFrameState (s.acceptBytes bs) t := by
  induction bs generalizing s u with
  | nil => exact ⟨_, runInputs_nil u, hsame⟩
  | cons b bs ih =>
    rw [List.length_cons] at h
    have hlt : s.cnt.toNat < s.cfg.frameBytes := by omega
    have hne : u.cnt ≠ u.cfg.frameLen := by
      obtain ⟨hcfg, hcnt, -⟩ := hsame
      rw [hcfg, hcnt]
      exact mt s.cnt_eq_frameLen_iff.1 hlt.ne
    rw [List.map_cons, programInputs_push, runInputs_cons (step_push rfl hne) rfl]
    exact ih (hsame.acceptByte b) (State.acceptByte_room b h)

/-! ## Four bytes from a word boundary -/

/-- Four bytes replaced are the whole word (40_frame_input.md R83, 20_memory.md R44). -/
theorem setByte_four (v : Word) (b0 b1 b2 b3 : Byte) :
    setByte (setByte (setByte (setByte v 0 b0) 1 b1) 2 b2) 3 b3 = b3 ++ b2 ++ b1 ++ b0 := by
  rw [← word_of_bytes (setByte _ 3 b3)]
  simp [getByte_setByte]

/-- A word boundary below FRAME_LEN has room for a whole word. -/
theorem State.cnt_add_four_le {s : State} (hlt : s.cnt.toNat < s.cfg.frameBytes) (hword : s.cnt.toNat % 4 = 0) :
    s.cnt.toNat + 4 ≤ s.cfg.frameBytes := by
  unfold Config.frameBytes at hlt ⊢
  omega

section
variable {s : State} (b0 b1 b2 b3 : Byte) (hroom : s.cnt.toNat + 4 ≤ s.cfg.frameBytes) (hword : s.cnt.toNat % 4 = 0)
include hroom hword

/-- The word assembled is that of the four bytes, whatever `ACC` held. -/
theorem State.acc_acceptBytes_four : (s.acceptBytes [b0, b1, b2, b3]).acc = b3 ++ b2 ++ b1 ++ b0 := by
  have hlane : ∀ bs : List Byte, bs.length < 4 → (s.acceptBytes bs).byteLane = bs.length := by
    intro bs hbs
    rw [byteLane, acceptBytes_toNat_cnt (by omega)]
    omega
  have h0 : s.byteLane = 0 := hword
  have h1 : (s.acceptByte b0).byteLane = 1 := hlane [b0] (by simp)
  have h2 : ((s.acceptByte b0).acceptByte b1).byteLane = 2 := hlane [b0, b1] (by simp)
  have h3 : (((s.acceptByte b0).acceptByte b1).acceptByte b2).byteLane = 3 := hlane [b0, b1, b2] (by simp)
  simp only [acceptBytes, acceptByte_acc, h0, h1, h2, h3]
  exact setByte_four s.acc b0 b1 b2 b3

theorem State.read_acceptBytes_four (hwf : s.samples.wf s.cfg.n = true) (hk : s.cnt.toNat / 4 < s.cfg.n) :
    (s.acceptBytes [b0, b1, b2, b3]).samples.read (s.cnt.toNat / 4) = b3 ++ b2 ++ b1 ++ b0 := by
  have hwf3 : (s.acceptBytes [b0, b1, b2]).samples.wf s.cfg.n = true := acceptBytes_wf _ hwf
  have hcnt3 : (s.acceptBytes [b0, b1, b2]).cnt.toNat = s.cnt.toNat + 3 := acceptBytes_toNat_cnt (by simp; omega)
  have hread := State.read_acceptByte (s := s.acceptBytes [b0, b1, b2]) b3 hwf3 hk
  rw [if_pos (by omega)] at hread
  exact hread.trans (State.acc_acceptBytes_four b0 b1 b2 b3 hroom hword)

theorem State.et_acceptBytes_four (hk : s.cnt.toNat / 4 = s.cfg.n) :
    (s.acceptBytes [b0, b1, b2, b3]).et = b3 ++ b2 ++ b1 ++ b0 := by
  have hcnt3 : (s.acceptBytes [b0, b1, b2]).cnt.toNat = s.cnt.toNat + 3 := acceptBytes_toNat_cnt (by simp; omega)
  have het := State.et_acceptByte (s := s.acceptBytes [b0, b1, b2]) b3 (by rw [hcnt3, acceptBytes_cfg]; omega)
  exact het.trans (State.acc_acceptBytes_four b0 b1 b2 b3 hroom hword)

end

/-- Settles O11: one byte changes what `acceptByte` says, and four from a word boundary make the word that the fourth
commits. -/
theorem pushByteAssemblesWords : Obligations.PushByteAssemblesWords := by
  refine ⟨fun s data rest hp => ?_, fun s b hwf hlt => ?_, fun s b hready => ?_, fun s b0 b1 b2 b3 hwf hlt hword => ?_⟩
  · rw [step_word hp, decode_make_pushByte]
    rfl
  · have hlane : s.cnt.toNat % 4 < 4 := Nat.mod_lt _ (by decide)
    have hrdy := State.rdy_acceptByte b hlt
    refine ⟨_, exec_pushByte_recv (mt s.cnt_eq_frameLen_iff.1 hlt.ne), State.acceptByte_toNat_cnt (b := b) hlt, ?_,
      fun j hj hne => ?_, fun a ha => State.read_acceptByte_keep b hwf ha, fun hc hk => ⟨?_, ?_⟩, fun hc hk => ⟨?_, ?_⟩,
      fun hc => ⟨?_, ?_⟩, rfl, rfl, hrdy, ?_⟩
    · exact (State.getByte_acc_acceptByte b hlane).trans (if_pos rfl)
    · exact (State.getByte_acc_acceptByte b hj).trans (if_neg hne)
    · exact (State.read_acceptByte b hwf hk).trans (if_pos (by omega))
    · exact State.et_acceptByte_keep b fun _ => hk
    · exact State.samples_acceptByte_keep b fun h => h.2.ne hk
    · exact State.et_acceptByte b (by omega)
    · exact State.samples_acceptByte_keep b fun h => hc h.1
    · exact State.et_acceptByte_keep b fun h => absurd h hc
    · simp [statusResponse, hrdy]
  · exact exec_pushByte_ready hready
  · have hroom := State.cnt_add_four_le hlt hword
    obtain ⟨t, ht, hcfg, hcnt, -, hsamples, het⟩ :=
      runInputs_push (bs := [b0, b1, b2, b3]) (s := s) (u := s) ⟨rfl, rfl, rfl, rfl, rfl⟩ hroom
    have hcnt4 : t.cnt.toNat = s.cnt.toNat + 4 := hcnt ▸ State.acceptBytes_toNat_cnt hroom
    rw [State.acceptBytes_cfg] at hcfg
    refine ⟨t, ht, hcnt4, fun hk => ?_, fun hk => ⟨?_, ?_⟩⟩
    · rw [hsamples]
      exact State.read_acceptBytes_four b0 b1 b2 b3 hroom hword hwf hk
    · rw [het]
      exact State.et_acceptBytes_four b0 b1 b2 b3 hroom hword hk
    · rw [t.phase_eq_ready, t.cnt_eq_frameLen_iff, hcnt4, hcfg, Config.frameBytes]
      omega

end Sys2Proof.Machine

namespace Sys2Proof.Machine

/-! ## The channel codes field by field

The codes are concatenations of fields of the word, so the bitwise operations pass through them, and the laws of the masks
(41_field_extract.md R103) are the values of the codes at the masks. -/

theorem toNat_append_eq_add {n m : Nat} (x : BitVec n) (y : BitVec m) : (x ++ y).toNat = y.toNat + 2 ^ m * x.toNat := by
  rw [BitVec.toNat_append, ← Nat.shiftLeft_add_eq_or_of_lt y.isLt, Nat.shiftLeft_eq, Nat.add_comm, Nat.mul_comm]

theorem chA_eq_shifts (w : Word) :
    chA w = BitVec.setWidth 6 (fieldALo w) ||| BitVec.setWidth 6 (fieldAHi w) <<< 5 := by
  rw [BitVec.or_comm, ← BitVec.setWidth_append_eq_shiftLeft_setWidth_or, BitVec.setWidth_eq, chA]

theorem chB_eq_shifts (w : Word) :
    chB w = BitVec.setWidth 6 (fieldBLo w) ||| BitVec.setWidth 6 (fieldBMid w) <<< 2
      ||| BitVec.setWidth 6 (fieldBHi w) <<< 5 := by
  rw [BitVec.or_comm, BitVec.or_comm (BitVec.setWidth 6 (fieldBLo w)), ← BitVec.or_assoc]
  exact (BitVec.setWidth_eq (chB w)).symm.trans BitVec.setWidth_append_append_eq_shiftLeft_setWidth_or

theorem toNat_chA (w : Word) : (chA w).toNat = w.toNat / 2 ^ 7 % 32 + 32 * (w.toNat / 2 ^ 25 % 2) := by
  rw [chA, toNat_append_eq_add]
  simp [fieldALo, fieldAHi, Nat.shiftRight_eq_div_pow]

theorem toNat_chB (w : Word) :
    (chB w).toNat = w.toNat / 2 ^ 17 % 4 + 4 * (w.toNat / 2 ^ 22 % 8) + 32 * (w.toNat / 2 ^ 27 % 2) := by
  rw [chB, toNat_append_eq_add, toNat_append_eq_add]
  simp [fieldBLo, fieldBMid, fieldBHi, Nat.shiftRight_eq_div_pow]
  omega

theorem chA_and (w v : Word) : chA (w &&& v) = chA w &&& chA v := by
  simp only [chA, fieldAHi, fieldALo, BitVec.extractLsb'_and]
  exact BitVec.and_append.symm

theorem chA_xor (w v : Word) : chA (w ^^^ v) = chA w ^^^ chA v := by
  simp only [chA, fieldAHi, fieldALo, BitVec.extractLsb'_xor]
  exact BitVec.xor_append.symm

theorem chA_or (w v : Word) : chA (w ||| v) = chA w ||| chA v := by
  simp only [chA, fieldAHi, fieldALo, BitVec.extractLsb'_or]
  exact BitVec.or_append.symm

theorem chB_and (w v : Word) : chB (w &&& v) = chB w &&& chB v := by
  simp only [chB, fieldBHi, fieldBMid, fieldBLo, BitVec.extractLsb'_and, ← BitVec.and_append]

theorem chB_xor (w v : Word) : chB (w ^^^ v) = chB w ^^^ chB v := by
  simp only [chB, fieldBHi, fieldBMid, fieldBLo, BitVec.extractLsb'_xor, ← BitVec.xor_append]

theorem chB_or (w v : Word) : chB (w ||| v) = chB w ||| chB v := by
  simp only [chB, fieldBHi, fieldBMid, fieldBLo, BitVec.extractLsb'_or, ← BitVec.or_append]

/-- Where the mask has all channel A bits, masking keeps the code. -/
theorem chA_and_of_full {m : Word} (h : chA m = BitVec.allOnes 6) (w : Word) : chA (w &&& m) = chA w := by
  rw [chA_and, h, BitVec.and_allOnes]

theorem chB_and_of_full {m : Word} (h : chB m = BitVec.allOnes 6) (w : Word) : chB (w &&& m) = chB w := by
  rw [chB_and, h, BitVec.and_allOnes]

/-- Where the mask has no channel A bit, changing bits of the mask keeps the code. -/
theorem chA_xor_and_of_zero {m : Word} (h : chA m = 0#6) (w v : Word) : chA (w ^^^ (v &&& m)) = chA w := by
  rw [chA_xor, chA_and, h, BitVec.and_zero, BitVec.xor_zero]

theorem chB_xor_and_of_zero {m : Word} (h : chB m = 0#6) (w v : Word) : chB (w ^^^ (v &&& m)) = chB w := by
  rw [chB_xor, chB_and, h, BitVec.and_zero, BitVec.xor_zero]

/-- Settles O17: each code is a concatenation, written with shifts and as a number. -/
theorem channelCodesOfWord : Obligations.ChannelCodesOfWord := fun w =>
  ⟨chA_eq_shifts w, chB_eq_shifts w, toNat_chA w, toNat_chB w⟩

/-! ## Enc and the channel codes invert each other -/

/-- Each of the two codes has its own bits of the word. -/
theorem encodeCodes_eq_or (a b : Code) : encodeCodes a b = encodeCodes a 0#6 ||| encodeCodes 0#6 b := by
  simp [encodeCodes, BitVec.or_assoc]

@[simp] theorem chA_encodeCodes (a b : Code) : chA (encodeCodes a b) = a := by
  have ha : ∀ a, chA (encodeCodes a 0#6) = a := by decide
  have hb : ∀ b, chA (encodeCodes 0#6 b) = 0#6 := by decide
  rw [encodeCodes_eq_or, chA_or, ha, hb, BitVec.or_zero]

@[simp] theorem chB_encodeCodes (a b : Code) : chB (encodeCodes a b) = b := by
  have ha : ∀ a, chB (encodeCodes a 0#6) = 0#6 := by decide
  have hb : ∀ b, chB (encodeCodes 0#6 b) = b := by decide
  rw [encodeCodes_eq_or, chB_or, ha, hb, BitVec.zero_or]

/-- The layout of 30_encoding.md R66: a concatenation is the union of its parts, each shifted to its place. -/
theorem encodeCodes_eq_append (a b : Code) : encodeCodes a b =
    0#4 ++ BitVec.extractLsb' 5 1 b ++ 0#1 ++ BitVec.extractLsb' 5 1 a ++ BitVec.extractLsb' 2 3 b ++ 0#3 ++
      BitVec.extractLsb' 0 2 b ++ 0#5 ++ BitVec.extractLsb' 0 5 a ++ 0#7 := by
  have reorder : ∀ aHi aLo bHi bMid bLo : Word,
      aHi ||| aLo ||| bHi ||| bMid ||| bLo = bHi ||| aHi ||| bMid ||| bLo ||| aLo := by
    intros
    ac_rfl
  refine Eq.trans ?_ (BitVec.setWidth_eq (n := 4 + 1 + 1 + 1 + 3 + 3 + 2 + 5 + 5 + 7) _)
  simp only [BitVec.setWidth_append_eq_shiftLeft_setWidth_or, BitVec.shiftLeft_or_distrib, ← BitVec.shiftLeft_add,
    BitVec.setWidth_zero, BitVec.zero_shiftLeft, BitVec.zero_or, BitVec.or_zero, encodeCodes]
  exact reorder _ _ _ _ _

theorem extractLsb'_chA_lo (w : Word) : BitVec.extractLsb' 0 5 (chA w) = fieldALo w :=
  BitVec.extractLsb'_append_eq_right

theorem extractLsb'_chA_hi (w : Word) : BitVec.extractLsb' 5 1 (chA w) = fieldAHi w :=
  BitVec.extractLsb'_append_eq_left

theorem extractLsb'_chB_lo (w : Word) : BitVec.extractLsb' 0 2 (chB w) = fieldBLo w :=
  BitVec.extractLsb'_append_eq_right

theorem extractLsb'_chB_mid (w : Word) : BitVec.extractLsb' 2 3 (chB w) = fieldBMid w :=
  (BitVec.extractLsb'_append_eq_of_le (by decide)).trans BitVec.extractLsb'_append_eq_right

theorem extractLsb'_chB_hi (w : Word) : BitVec.extractLsb' 5 1 (chB w) = fieldBHi w :=
  (BitVec.extractLsb'_append_eq_of_le (by decide)).trans BitVec.extractLsb'_append_eq_left

/-- A field of a word, put back at its place, is the word masked with the field's bits. -/
theorem setWidth_extractLsb'_shiftLeft {n : Nat} (w : BitVec n) (s l : Nat) :
    BitVec.setWidth n (BitVec.extractLsb' s l w) <<< s = w &&& (BitVec.setWidth n (BitVec.allOnes l) <<< s) := by
  apply BitVec.eq_of_getLsbD_eq
  intro i hi
  simp only [BitVec.getLsbD_and, BitVec.getLsbD_shiftLeft, BitVec.getLsbD_setWidth, BitVec.getLsbD_extractLsb',
    BitVec.getLsbD_allOnes]
  by_cases hs : i < s
  · simp [hs]
  · have hback : s + (i - s) = i := by omega
    rw [hback]
    ac_rfl

theorem encodeCodes_chA_chB (w : Word) : encodeCodes (chA w) (chB w) = w &&& 0x0BC60F80#32 := by
  rw [encodeCodes, extractLsb'_chA_hi, extractLsb'_chA_lo, extractLsb'_chB_hi, extractLsb'_chB_mid, extractLsb'_chB_lo]
  simp only [fieldAHi, fieldALo, fieldBHi, fieldBMid, fieldBLo, setWidth_extractLsb'_shiftLeft,
    ← BitVec.and_or_distrib_left]
  rfl

/-- Settles O19: `Enc` is the layout, and the codes of a word put its masked fields back. -/
theorem encInvertsChannelCodes : Obligations.EncInvertsChannelCodes :=
  ⟨encodeCodes_eq_append, fun a b => ⟨chA_encodeCodes a b, chB_encodeCodes a b⟩, encodeCodes_chA_chB⟩

/-- Settles O18: the codes at the masks say which bits they depend on, and `Enc` gives a word for every code. -/
theorem channelCodesDependOnTheirMasks : Obligations.ChannelCodesDependOnTheirMasks :=
  ⟨fun w => ⟨(chA_and_of_full rfl w).symm, (chB_and_of_full rfl w).symm⟩,
    fun w v => ⟨chA_xor_and_of_zero rfl w v, chB_xor_and_of_zero rfl w v⟩,
    fun w v => ⟨chA_xor_and_of_zero rfl w v, chB_xor_and_of_zero rfl w v⟩,
    fun a => ⟨⟨encodeCodes a 0#6, chA_encodeCodes a 0#6⟩, ⟨encodeCodes 0#6 a, chB_encodeCodes 0#6 a⟩⟩,
    rfl, rfl, rfl, rfl⟩

/-! ## Integers are exact in binary64 -/

/-- An integer below `2 ^ 53` is rounded in a unit of at most 1. -/
theorem roundUnit_nat_nonpos {n : Nat} (hn : 0 < n) (h : n < 2 ^ 53) : roundUnit n 1 0 ≤ 0 := by
  have hpow : (2 : ℚ) ^ ratioLog2 n 1 < 2 ^ (53 : ℤ) :=
    calc (2 : ℚ) ^ ratioLog2 n 1 ≤ (n : ℚ) / (1 : ℕ) := (ratioLog2_spec hn one_pos).1
      _ = n := by simp
      _ < 2 ^ (53 : ℤ) := by exact_mod_cast h
  have hlog : ratioLog2 n 1 < 53 := (zpow_lt_zpow_iff_right₀ (by norm_num)).1 hpow
  unfold roundUnit
  omega

/-- In such a unit the integer is a whole number of units, and nothing is rounded away. -/
theorem roundSignificand_nat {n : Nat} (h : roundUnit n 1 0 ≤ 0) :
    roundSignificand n 1 0 = n * 2 ^ (-roundUnit n 1 0).toNat := by
  have hup : (roundUnit n 1 0 - 0).toNat = 0 := by omega
  rw [roundSignificand, hup, zero_sub]
  simp [roundTiesEven, Nat.mod_one]

theorem f64_zero : f64 0 = 0#64 := by decide

/-- An integer below `2 ^ 53` converts to a non-negative finite value. -/
theorem toNat_f64_lt_infinity {n : Nat} (h : n < 2 ^ 53) : (f64 n).toNat < 2047 * 2 ^ 52 := by
  rcases Nat.eq_zero_or_pos n with rfl | hn
  · simp [f64_zero]
  · have hunit := roundUnit_nat_nonpos hn h
    have hsig := (roundSignificand_bounds hn one_pos 0).1
    rw [f64, toNat_roundSigned, roundMagnitude_eq hn]
    omega

/-- The conversion of an integer below `2 ^ 53` is exact (00_scope.md R11). -/
theorem f64ToRat_f64 {n : Nat} (h : n < 2 ^ 53) : f64ToRat (f64 n) = n := by
  rcases Nat.eq_zero_or_pos n with rfl | hn
  · simp [f64_zero, f64ToRat, f64Significand, f64Exponent, f64Fraction]
  · have hlt := toNat_f64_lt_infinity h
    have hunit := roundUnit_nat_nonpos hn h
    obtain ⟨k, hk⟩ := Int.eq_ofNat_of_zero_le (neg_nonneg.2 hunit)
    have hneg : roundUnit n 1 0 = -k := by omega
    rw [f64ToRat_eq hlt]
    rw [f64, toNat_roundSigned] at hlt ⊢
    rw [magToRat_round hn one_pos 0 hlt, roundSignificand_nat hunit, hneg]
    simp

/-! ## Volts -/

theorem voltsPerStep_eq : voltsPerStep = 0x3FB4514514514514#64 := by decide

theorem toNat_voltsPerStep_lt_infinity : voltsPerStep.toNat < 2047 * 2 ^ 52 := by decide

theorem volts_zero : volts 0#6 = 0#64 := by decide

theorem volts_one : volts 1#6 = voltsPerStep := by decide

theorem volts_max : volts 63#6 = 0x4014000000000000#64 := by decide

/-- A voltage is the exact product of the code and `K`, rounded once (41_field_extract.md R105). -/
theorem toNat_volts (v : Code) : ∃ p e, ((p : ℕ) : ℚ) / (1 : ℕ) * 2 ^ (e : ℤ) = v.toNat * f64ToRat voltsPerStep ∧
    (volts v).toNat = roundMagnitude p 1 e := by
  have hv : v.toNat < 2 ^ 53 := by omega
  have hlt := toNat_f64_lt_infinity hv
  have hprod := prod_value (notNaN_of hlt).2.2 (notNaN_of toNat_voltsPerStep_lt_infinity).2.2
  rw [f64ToRat_f64 hv] at hprod
  exact ⟨_, _, hprod, fmul_eq hlt toNat_voltsPerStep_lt_infinity⟩

/-- Rounding is monotone, so a larger code has no smaller voltage. -/
theorem toNat_volts_mono {v u : Code} (h : v.toNat ≤ u.toNat) : (volts v).toNat ≤ (volts u).toNat := by
  obtain ⟨p, e, hp, hv⟩ := toNat_volts v
  obtain ⟨p', e', hp', hu⟩ := toNat_volts u
  have hK : 0 ≤ f64ToRat voltsPerStep := by
    rw [rat_nonneg (notNaN_of toNat_voltsPerStep_lt_infinity).2.2]
    positivity
  rw [hv, hu]
  apply roundMagnitude_mono one_pos one_pos
  rw [hp, hp']
  exact mul_le_mul_of_nonneg_right (by exact_mod_cast h) hK

theorem toNat_volts_le (v : Code) : (volts v).toNat ≤ 0x4014000000000000 := by
  have hv : v.toNat ≤ (63#6).toNat := Nat.le_of_lt_succ v.isLt
  simpa [volts_max] using toNat_volts_mono hv

/-- The smallest voltage other than zero is `K` (41_field_extract.md R108). -/
theorem voltsPerStep_le_volts {v : Code} (h : v ≠ 0#6) : voltsPerStep.toNat ≤ (volts v).toNat := by
  have hv : (1#6).toNat ≤ v.toNat := by bv_omega
  exact volts_one ▸ toNat_volts_mono hv

/-- Settles O20: `Volts` is monotone, so its values at 0, 1 and 63 bound all the others. -/
theorem voltsLaws : Obligations.VoltsLaws := by
  refine ⟨voltsPerStep_eq, volts_zero, volts_max, fun v u => toNat_volts_mono, fun v => ?_, by decide, by decide,
    by decide, by decide⟩
  have hle := toNat_volts_le v
  obtain ⟨hsign, hfin⟩ := (nonneg_finite_iff (volts v)).2 (by omega)
  refine ⟨hsign, hfin, hle, fun hv => ?_⟩
  have hge : 0x3FB4514514514514 ≤ (volts v).toNat := by
    simpa [voltsPerStep_eq] using voltsPerStep_le_volts hv
  rw [f64Exponent_eq]
  omega

/-! ## EXTRACT -/

/-- EXTRACT answers the codes of its word, however they were found, with their voltages (41_field_extract.md R100). -/
theorem exec_extract {w : Word} {a b : Code} (ha : chA w = a) (hb : chB w = b) (s : State) :
    exec (.extract w) s = .next (s.respond
      { st := .ok, rdy := s.rdy, cnt := s.cnt, cha := a, chb := b, va := volts a, vb := volts b }) := by
  subst ha hb
  rfl

/-- A word without channel A bits has code 0. -/
theorem chA_eq_zero {w : Word} (h : w &&& 0x02000F80#32 = 0#32) : chA w = 0#6 :=
  (chA_and_of_full rfl w).symm.trans (congrArg chA h)

theorem chB_eq_zero {w : Word} (h : w &&& 0x09C60000#32 = 0#32) : chB w = 0#6 :=
  (chB_and_of_full rfl w).symm.trans (congrArg chB h)

/-- A word without bits outside channel B has code 0 in channel A. -/
theorem chA_eq_zero_of_onlyB {w : Word} (h : w &&& ~~~0x09C60000#32 = 0#32) : chA w = 0#6 :=
  (chA_and_of_full rfl w).symm.trans (congrArg chA h)

/-- Settles O21: EXTRACT answers codes and voltages in every state, and the corner cases are those of the codes. -/
theorem extractDecodesItsWord : Obligations.ExtractDecodesItsWord := by
  refine ⟨fun s w => rfl, fun s w rest hp => ?_, fun s w hA hB => ?_, fun s => ?_, fun s w hA => ?_, fun s => ?_⟩
  · rw [step_word hp, decode_make_extract]
    rfl
  · rw [exec_extract (chA_eq_zero hA) (chB_eq_zero hB), volts_zero]
    rfl
  · rw [exec_extract (a := 63#6) (b := 63#6) rfl rfl, volts_max]
    rfl
  · rw [exec_extract (chA_eq_zero_of_onlyB hA) rfl, volts_zero]
    rfl
  · have hvolts : volts 53#6 = 0x4010D34D34D34D35#64 := by decide
    rw [exec_extract (a := 53#6) (b := 0#6) rfl rfl, volts_zero, hvolts]
    rfl

end Sys2Proof.Machine

namespace Sys2Proof.Machine

/-! ## READ_SAMPLE of a held frame -/

/-- In READY the response carries RDY and FRAME_LEN (42_sample_readout.md R120). -/
theorem sampleResponse_of_ready {s : State} (h : s.cnt = s.cfg.frameLen) (w : Word) (toff : F64) :
    sampleResponse s w toff =
      { st := .ok, rdy := true, cnt := s.cfg.frameLen, cha := chA w, chb := chB w, toff := toff,
        va := volts (chA w), vb := volts (chB w) } := by
  simp [sampleResponse, State.rdy_eq, h]

/-- The receiver that holds a whole frame reads out the frame's decoded samples (42_sample_readout.md R127). -/
theorem HoldsBytes.exec_readSample {s : State} {f : List Byte} (h : HoldsBytes s f)
    (hfull : f.length = s.cfg.frameBytes) {i : Word} (hi : i.toNat < s.cfg.n) :
    exec (.readSample i) s = .next (s.respond (readyResponse s.cfg (decodedSample s.cfg f i.toNat))) := by
  have hready := h.ready_iff.2 hfull
  have hcommitted : 4 * i.toNat + 3 < f.length := by
    rw [hfull, Config.frameBytes]
    omega
  rw [exec_readSample_held hready hi, sampleResponse_of_ready hready, h.word _ hi hcommitted, h.et hfull]
  rfl

/-- After a boundary and the bytes of a whole frame the receiver holds that frame. -/
theorem runInputs_wholeFrame {s : State} {first : Input} {ins : List Input} (hwf : s.samples.wf s.cfg.n = true)
    (hfirst : isBoundary first = true) (hins : WithinFrame ins) (hlen : (offeredBytes ins).length = s.cfg.frameBytes) :
    ∃ t, runInputs (first :: ins) s = .next t ∧ t.cfg = s.cfg ∧ HoldsBytes t (offeredBytes ins) := by
  obtain ⟨t, ht, hcfg, h⟩ := runInputs_boundary hwf hfirst hins
  rw [List.take_of_length_le hlen.le] at h
  exact ⟨t, ht, hcfg, h⟩

/-- The samples that DecodeFrame lists are those of the indices below N (42_sample_readout.md R126). -/
theorem getElem?_decodedSamples {c : Config} {f : List Byte} {i : Nat} {d : DecodedSample}
    (h : ((List.range c.n).map (decodedSample c f))[i]? = some d) : i < c.n ∧ decodedSample c f i = d := by
  simpa [List.getElem?_eq_some_iff] using h

/-- Settles O42: a whole frame after a boundary is held, and what is held is read out as DecodeFrame has it. -/
theorem receiverAgreesWithDecodeFrame : Obligations.ReceiverAgreesWithDecodeFrame := by
  rintro s first ins _ hwf hfirst hins rfl hlen
  obtain ⟨t, ht, hcfg, h⟩ := runInputs_wholeFrame hwf hfirst hins hlen
  rw [← hcfg] at hlen ⊢
  refine ⟨t, _, ht, t.phase_eq_ready.2 (h.ready_iff.2 hlen), if_pos hlen, by simp, fun i d hd => ?_⟩
  obtain ⟨hi, rfl⟩ := getElem?_decodedSamples hd
  exact h.exec_readSample hlen hi

/-! ## READY until the next boundary -/

/-- In READY a request that is no boundary only returns a response (42_sample_readout.md R128). -/
theorem step_ready {s : State} {i : Input} {rest : List Input} (hready : s.cnt = s.cfg.frameLen)
    (hp : s.pending = i :: rest) (hreq : isRequest i = true) (hb : isBoundary i = false) :
    ∃ r, step s = .next ((s.withPending rest).respond r) := by
  rcases step_cases hp (not_sample_of_isRequest hreq) with ⟨hb', -⟩ | ⟨-, _, -, hne, -⟩ | ⟨-, -, he⟩
  · simp [hb] at hb'
  · exact absurd hready hne
  · exact he

theorem runInputs_ready {s : State} {ins : List Input} (hready : s.cnt = s.cfg.frameLen) (hins : WithinFrame ins) :
    ∃ t, runInputs ins s = .next t ∧ SameFrameState s t := by
  induction ins generalizing s with
  | nil => exact ⟨_, runInputs_nil s, rfl, rfl, rfl, rfl, rfl⟩
  | cons i ins ih =>
    obtain ⟨⟨hreq, hb⟩, hins⟩ := List.forall_mem_cons.1 hins
    obtain ⟨r, hr⟩ := step_ready (s := s.withPending (i :: ins)) hready rfl hreq hb
    rw [runInputs_cons hr rfl]
    exact ih (s := (s.withPending ins).respond r) hready hins

theorem SameFrameState.phase_eq {s t : State} (h : SameFrameState s t) : t.phase = s.phase := by
  obtain ⟨hcfg, hcnt, -⟩ := h
  rw [State.phase, State.rdy, hcfg, hcnt, State.phase, State.rdy]

/-- The request of a line READ performs READ_SAMPLE (30_encoding.md R71). -/
theorem step_read {s : State} {i : Word} {rest : List Input}
    (hp : s.pending = .word (.request (Request.make 2#3 i)) :: rest) :
    step s = exec (.readSample i) (s.withPending rest) := by
  rw [step_word hp, decode_make_readSample]

theorem programInputs_read (i : Word) (p : List Line) :
    programInputs (.read i :: p) = .word (.request (Request.make 2#3 i)) :: programInputs p :=
  programInputs_cons (.read i) p

/-- Lines READ of a held frame answer its decoded samples, one for one, and hold the frame (42_sample_readout.md
R128). -/
theorem HoldsBytes.runInputs_read {s : State} {f : List Byte} (h : HoldsBytes s f)
    (hfull : f.length = s.cfg.frameBytes) {indices : List Word} (hi : ∀ i ∈ indices, i.toNat < s.cfg.n) :
    ∃ u, runInputs (programInputs (indices.map .read)) s = .next u ∧ SameFrameState s u ∧
      u.responses = s.responses ++ indices.map fun i => readyResponse s.cfg (decodedSample s.cfg f i.toNat) := by
  induction indices generalizing s with
  | nil => exact ⟨_, runInputs_nil s, ⟨rfl, rfl, rfl, rfl, rfl⟩, by simp⟩
  | cons i indices ih =>
    obtain ⟨hi, his⟩ := List.forall_mem_cons.1 hi
    rw [List.map_cons, programInputs_read]
    have h' := h.withPending (programInputs (indices.map .read))
    obtain ⟨u, hu, hsame, hresp⟩ := ih (h'.respond _) hfull his
    have hstep := h'.exec_readSample hfull hi
    exact ⟨u, (runInputs_cons ((step_read rfl).trans hstep) rfl).trans hu, hsame, by simpa using hresp⟩

/-- Settles O43: in READY no request but CLEAR changes the frame state, so a frame held stays held while it is read. -/
theorem readoutIsRestartable : Obligations.ReadoutIsRestartable := by
  constructor
  · intro s ins hready hins
    obtain ⟨t, ht, hsame⟩ := runInputs_ready (s.phase_eq_ready.1 hready) hins
    exact ⟨t, ht, hsame, hsame.phase_eq.trans hready⟩
  · intro s t first ins indices hwf hfirst hins hlen ht hi
    obtain ⟨t', ht', hcfg, h⟩ := runInputs_wholeFrame hwf hfirst hins hlen
    obtain rfl : t' = t := Host.Outcome.next.inj (ht'.symm.trans ht)
    rw [← hcfg] at hlen hi ⊢
    exact h.runInputs_read hlen hi

/-! ## What the operations of binary64 round -/

/-- The pattern is that of the non-negative rational, rounded once (00_scope.md R9). -/
def RoundsTo (v : ℚ) (x : F64) : Prop :=
  ∃ (p q : Nat) (e : ℤ), 0 < q ∧ (p : ℚ) / q * 2 ^ e = v ∧ x.toNat = roundMagnitude p q e

namespace RoundsTo

variable {v w : ℚ} {x y : F64}

theorem mono (hx : RoundsTo v x) (hy : RoundsTo w y) (h : v ≤ w) : x.toNat ≤ y.toNat := by
  obtain ⟨p, q, e, hq, rfl, hx⟩ := hx
  obtain ⟨p', q', e', hq', rfl, hy⟩ := hy
  rw [hx, hy]
  exact roundMagnitude_mono hq hq' h

theorem unique (hx : RoundsTo v x) (hy : RoundsTo v y) : x = y :=
  BitVec.eq_of_toNat_eq (le_antisymm (hx.mono hy le_rfl) (hy.mono hx le_rfl))

end RoundsTo

theorem roundsTo_f64 (n : Nat) : RoundsTo n (f64 n) :=
  ⟨n, 1, 0, one_pos, by simp, toNat_roundSigned n 1 0⟩

theorem f64ToRat_zero : f64ToRat 0#64 = 0 := by
  rw [← f64_zero, f64ToRat_f64 (by norm_num), Nat.cast_zero]

theorem roundsTo_zero : RoundsTo 0 0#64 := by
  rw [← f64_zero, ← Nat.cast_zero]
  exact roundsTo_f64 0

theorem RoundsTo.eq_zero {x : F64} (h : RoundsTo 0 x) : x = 0#64 := h.unique roundsTo_zero

theorem roundsTo_fmul {x y : F64} (hx : x.toNat < 2047 * 2 ^ 52) (hy : y.toNat < 2047 * 2 ^ 52) :
    RoundsTo (f64ToRat x * f64ToRat y) (fmul x y) := by
  obtain ⟨-, -, hsx⟩ := notNaN_of hx
  obtain ⟨-, -, hsy⟩ := notNaN_of hy
  exact ⟨_, _, _, one_pos, prod_value hsx hsy, fmul_eq hx hy⟩

theorem roundsTo_fdiv {x y : F64} (hx : x.toNat < 2047 * 2 ^ 52) (hy : y.toNat < 2047 * 2 ^ 52)
    (hz : f64IsZero y = false) :
    RoundsTo (f64ToRat x / f64ToRat y) (fdiv x y) := by
  obtain ⟨-, -, hsx⟩ := notNaN_of hx
  obtain ⟨-, -, hsy⟩ := notNaN_of hy
  exact ⟨_, _, _, sig_pos hz, quot_value hsx hsy, fdiv_eq hx hy hz⟩

/-- A finite value is its own rounding. -/
theorem roundsTo_self {x : F64} (hx : x.toNat < 2047 * 2 ^ 52) : RoundsTo (f64ToRat x) x := by
  obtain ⟨-, -, hsign⟩ := notNaN_of hx
  cases hz : f64IsZero x with
  | true =>
    obtain rfl := (isZero_iff hx).1 hz
    rw [f64ToRat_zero]
    exact roundsTo_zero
  | false =>
    have hval : (f64Significand x : ℚ) / (1 : ℕ) * 2 ^ f64Unit x = f64ToRat x := by
      rw [rat_nonneg hsign, Nat.cast_one, div_one]
    have hround := roundMagnitude_exact (sig_pos hz) one_pos _ hx (hval.trans (f64ToRat_eq hx))
    exact ⟨_, 1, _, one_pos, hval, hround.symm⟩

theorem f64ToRat_nonneg {x : F64} (hx : x.toNat < 2047 * 2 ^ 52) : 0 ≤ f64ToRat x := by
  rw [rat_nonneg (notNaN_of hx).2.2]
  positivity

/-- Patterns of finite non-negative values are ordered as the values are. -/
theorem f64ToRat_mono {x y : F64} (hy : y.toNat < 2047 * 2 ^ 52) (h : x.toNat ≤ y.toNat) :
    f64ToRat x ≤ f64ToRat y := by
  by_contra hlt
  have hx := h.trans_lt hy
  have hge := (roundsTo_self hy).mono (roundsTo_self hx) (not_le.1 hlt).le
  obtain rfl : x = y := BitVec.eq_of_toNat_eq (le_antisymm h hge)
  exact hlt le_rfl

theorem f64IsZero_f64 {n : Nat} (hn : 0 < n) (h : n < 2 ^ 53) : f64IsZero (f64 n) = false := by
  rw [Bool.eq_false_iff]
  intro hz
  have hval : (n : ℚ) = 0 := by
    rw [← f64ToRat_f64 h, (isZero_iff (toNat_f64_lt_infinity h)).1 hz, f64ToRat_zero]
  exact hn.ne' (by exact_mod_cast hval)

/-! ## The time offset -/

section
variable (c : Config) (et : Word)

/-- N, and so every index, converts exactly. -/
theorem Config.n_lt_two_pow : c.n < 2 ^ 53 := by
  have := c.bounded
  omega

/-- The quotient is `ET / N`, rounded once (42_sample_readout.md R122). -/
theorem roundsTo_nsPerSample : RoundsTo (et.toNat / c.n) (nsPerSample c.n et) := by
  have het : et.toNat < 2 ^ 53 := by omega
  have hn : c.n < 2 ^ 53 := Config.n_lt_two_pow c
  have h := roundsTo_fdiv (toNat_f64_lt_infinity het) (toNat_f64_lt_infinity hn) (f64IsZero_f64 c.positive hn)
  rwa [f64ToRat_f64 het, f64ToRat_f64 hn] at h

theorem toNat_nsPerSample_le : (nsPerSample c.n et).toNat ≤ (f64 (2 ^ 32)).toNat := by
  refine (roundsTo_nsPerSample c et).mono (roundsTo_f64 _) ?_
  have hn : (1 : ℚ) ≤ c.n := by exact_mod_cast c.positive
  have het : (et.toNat : ℚ) ≤ (2 ^ 32 : ℕ) := by exact_mod_cast et.isLt.le
  exact (div_le_self (by positivity) hn).trans het

theorem toNat_nsPerSample_lt_infinity : (nsPerSample c.n et).toNat < 2047 * 2 ^ 52 :=
  (toNat_nsPerSample_le c et).trans_lt (toNat_f64_lt_infinity (by norm_num))

theorem f64ToRat_nsPerSample_le : f64ToRat (nsPerSample c.n et) ≤ (2 ^ 32 : ℕ) := by
  rw [← f64ToRat_f64 (n := 2 ^ 32) (by norm_num)]
  exact f64ToRat_mono (toNat_f64_lt_infinity (by norm_num)) (toNat_nsPerSample_le c et)

variable {i : Nat}

/-- The offset is `i` times the quotient, rounded once more (42_sample_readout.md R122). -/
theorem roundsTo_timeOffset (hi : i < c.n) :
    RoundsTo (i * f64ToRat (nsPerSample c.n et)) (timeOffset c.n i et) := by
  have hi53 : i < 2 ^ 53 := hi.trans (Config.n_lt_two_pow c)
  have h := roundsTo_fmul (toNat_f64_lt_infinity hi53) (toNat_nsPerSample_lt_infinity c et)
  rwa [f64ToRat_f64 hi53] at h

theorem timeOffset_index_zero : timeOffset c.n 0 et = 0#64 := by
  have h := roundsTo_timeOffset c et c.positive
  rw [Nat.cast_zero, zero_mul] at h
  exact h.eq_zero

theorem timeOffset_mono {j : Nat} (hij : i ≤ j) (hj : j < c.n) :
    (timeOffset c.n i et).toNat ≤ (timeOffset c.n j et).toNat := by
  refine (roundsTo_timeOffset c et (hij.trans_lt hj)).mono (roundsTo_timeOffset c et hj) ?_
  exact mul_le_mul_of_nonneg_right (by exact_mod_cast hij) (f64ToRat_nonneg (toNat_nsPerSample_lt_infinity c et))

/-- An offset is below `2 ^ 30 * 2 ^ 32`. -/
theorem toNat_timeOffset_lt_infinity (hi : i < c.n) : (timeOffset c.n i et).toNat < 2047 * 2 ^ 52 := by
  have hle : (timeOffset c.n i et).toNat ≤ (f64 (2 ^ 30 * 2 ^ 32)).toNat := by
    refine (roundsTo_timeOffset c et hi).mono (roundsTo_f64 _) ?_
    have hi30 : i ≤ 2 ^ 30 := by
      have := c.bounded
      omega
    rw [Nat.cast_mul]
    exact mul_le_mul (by exact_mod_cast hi30) (f64ToRat_nsPerSample_le c et)
      (f64ToRat_nonneg (toNat_nsPerSample_lt_infinity c et)) (by positivity)
  have hfin : (f64 (2 ^ 30 * 2 ^ 32)).toNat < 2047 * 2 ^ 52 := by decide
  exact hle.trans_lt hfin

theorem nsPerSample_et_zero : nsPerSample c.n 0#32 = 0#64 :=
  RoundsTo.eq_zero (by simpa using roundsTo_nsPerSample c 0#32)

theorem timeOffset_et_zero (hi : i < c.n) : timeOffset c.n i 0#32 = 0#64 := by
  have h := roundsTo_timeOffset c 0#32 hi
  rw [nsPerSample_et_zero, f64ToRat_zero, mul_zero] at h
  exact h.eq_zero

variable {et}

theorem nsPerSample_et_eq_n (het : et.toNat = c.n) : nsPerSample c.n et = f64 1 := by
  have hn : (c.n : ℚ) ≠ 0 := by exact_mod_cast (Nat.pos_iff_ne_zero.1 c.positive)
  have h := roundsTo_nsPerSample c et
  rw [het, div_self hn] at h
  exact h.unique (by simpa using roundsTo_f64 1)

theorem timeOffset_et_eq_n (het : et.toNat = c.n) (hi : i < c.n) : timeOffset c.n i et = f64 i := by
  have h := roundsTo_timeOffset c et hi
  rw [nsPerSample_et_eq_n c het, f64ToRat_f64 (by norm_num), Nat.cast_one, mul_one] at h
  exact h.unique (roundsTo_f64 i)

end

/-- Settles O25: offset and quotient are each an exact value rounded once, and rounding is monotone and keeps
integers. -/
theorem timeOffsetLaws : Obligations.TimeOffsetLaws := by
  refine ⟨timeOffset_index_zero, fun c i hi => timeOffset_et_zero c hi, fun c et i hi het => ⟨?_, ?_⟩,
    fun c et i j hij hj => timeOffset_mono c et hij hj, fun c et i hi => ?_, by decide, by decide⟩
  · rw [nsPerSample_et_eq_n c het]
    decide
  · exact timeOffset_et_eq_n c het hi
  · exact (nonneg_finite_iff _).2 (toNat_timeOffset_lt_infinity c et hi)

/-- Settles O27: the three outcomes of READ_SAMPLE, and the time offset of index 0 and of `ET` 0. -/
theorem readSampleDeliversDecodedSample : Obligations.ReadSampleDeliversDecodedSample := by
  refine ⟨fun s i rest hp => step_read hp, fun s i hrecv => exec_readSample_recv hrecv,
    fun s i hready hi => exec_readSample_outOfRange hready hi, fun s i hready hi => ?_, fun s i hready hi hzero => ?_⟩
  · rw [exec_readSample_held hready hi, sampleResponse_of_ready hready]
    rfl
  · refine ⟨_, rfl, ?_, exec_readSample_held hready hi⟩
    rcases hzero with rfl | het
    · exact timeOffset_index_zero s.cfg s.et
    · rw [het]
      exact timeOffset_et_zero s.cfg hi

end Sys2Proof.Machine

namespace Sys2Proof.Machine

/-! ## The status of an operation -/

/-- The status an operation answers in a state, by its first cause (60_exceptions.md R144). The row SAMPLE_WORD is
refused and answers none; its value here is not used. -/
def execStatus : Instr → State → Status
  | .pushByte _, s => if s.cnt = s.cfg.frameLen then .overrun else .ok
  | .readSample i, s => if s.cnt ≠ s.cfg.frameLen then .notReady else if s.cfg.n ≤ i.toNat then .index else .ok
  | .illegalOp5, _ => .illegalOp
  | .illegalOp67 _, _ => .illegalOp
  | .clear, _ => .ok
  | .readStatus, _ => .ok
  | .extract _, _ => .ok
  | .sampleWord _, _ => .ok

section
variable {s : State}

theorem execStatus_pushByte_ready (b : Byte) (h : s.cnt = s.cfg.frameLen) : execStatus (.pushByte b) s = .overrun :=
  if_pos h

theorem execStatus_pushByte_recv (b : Byte) (h : s.cnt ≠ s.cfg.frameLen) : execStatus (.pushByte b) s = .ok :=
  if_neg h

theorem execStatus_readSample_recv (i : Word) (h : s.cnt ≠ s.cfg.frameLen) :
    execStatus (.readSample i) s = .notReady :=
  if_pos h

theorem execStatus_readSample_outOfRange {i : Word} (h : s.cnt = s.cfg.frameLen) (hi : s.cfg.n ≤ i.toNat) :
    execStatus (.readSample i) s = .index :=
  (if_neg (not_not.2 h)).trans (if_pos hi)

theorem execStatus_readSample_held {i : Word} (h : s.cnt = s.cfg.frameLen) (hi : i.toNat < s.cfg.n) :
    execStatus (.readSample i) s = .ok :=
  (if_neg (not_not.2 h)).trans (if_neg (not_le.2 hi))

/-- An operation with an error status raises it and does nothing else (60_exceptions.md R143, R146). -/
theorem exec_error {i : Instr} (h : execStatus i s ≠ .ok) : exec i s = raise (execStatus i s) s := by
  cases i with
  | pushByte b =>
    by_cases hc : s.cnt = s.cfg.frameLen
    · rw [exec_pushByte_ready hc, execStatus_pushByte_ready b hc, raise_eq]
    · exact absurd (execStatus_pushByte_recv b hc) h
  | readSample j =>
    by_cases hc : s.cnt = s.cfg.frameLen
    · by_cases hj : s.cfg.n ≤ j.toNat
      · rw [exec_readSample_outOfRange hc hj, execStatus_readSample_outOfRange hc hj, raise_eq]
      · exact absurd (execStatus_readSample_held hc (not_le.1 hj)) h
    · rw [exec_readSample_recv hc, execStatus_readSample_recv j hc, raise_eq]
  | illegalOp5 => rfl
  | illegalOp67 op => rfl
  | clear => exact absurd rfl h
  | readStatus => exact absurd rfl h
  | extract w => exact absurd rfl h
  | sampleWord w => exact absurd rfl h

end

/-! ## No operation reads the responses returned before it -/

/-- The state with `rs` for the responses returned so far. -/
def State.withResponses (rs : List Response) (s : State) : State := { s with responses := rs }

@[simp] theorem State.withResponses_responses (rs : List Response) (s : State) : (s.withResponses rs).responses = rs :=
  rfl

/-- Every operation adds one response, of the status `execStatus`, to whatever was returned before it. -/
theorem exec_answers (i : Instr) (s : State) (hi : ∀ w, i ≠ .sampleWord w) :
    ∃ (t : State) (resp : Response), resp.st = execStatus i s ∧
      ∀ rs, exec i (s.withResponses rs) = .next (t.withResponses (rs ++ [resp])) := by
  cases i with
  | clear => exact ⟨s.clearFrame, { st := .ok }, rfl, fun rs => rfl⟩
  | pushByte b =>
    by_cases hc : s.cnt = s.cfg.frameLen
    · exact ⟨s, errorResponse .overrun, (execStatus_pushByte_ready b hc).symm, fun rs => exec_pushByte_ready hc⟩
    · exact ⟨s.acceptByte b, statusResponse (s.acceptByte b), (execStatus_pushByte_recv b hc).symm,
        fun rs => exec_pushByte_recv hc⟩
  | readSample j =>
    by_cases hc : s.cnt = s.cfg.frameLen
    · by_cases hj : s.cfg.n ≤ j.toNat
      · exact ⟨s, errorResponse .index, (execStatus_readSample_outOfRange hc hj).symm,
          fun rs => exec_readSample_outOfRange hc hj⟩
      · have hj := not_le.1 hj
        exact ⟨s, sampleResponse s (s.samples.read j.toNat) (timeOffset s.cfg.n j.toNat s.et),
          (execStatus_readSample_held hc hj).symm, fun rs => exec_readSample_held hc hj⟩
    · exact ⟨s, errorResponse .notReady, (execStatus_readSample_recv j hc).symm, fun rs => exec_readSample_recv hc⟩
  | readStatus => exact ⟨s, statusResponse s, rfl, fun rs => rfl⟩
  | extract w => exact ⟨s, sampleResponse s w 0#64, rfl, fun rs => rfl⟩
  | illegalOp5 => exact ⟨s, errorResponse .illegalOp, rfl, fun rs => rfl⟩
  | illegalOp67 op => exact ⟨s, errorResponse .illegalOp, rfl, fun rs => rfl⟩
  | sampleWord w => exact absurd rfl (hi w)

/-- A request is answered with the status of its operation; an error adds its response and takes the request from those
that wait, and changes nothing else. -/
theorem step_request_answers {s : State} {r : Request} {rest : List Input} (hp : s.pending = .word (.request r) :: rest) :
    ∃ t resp, step s = .next t ∧ t.responses = s.responses ++ [resp] ∧
      resp.st = execStatus (decode (.request r)) (s.withPending rest) ∧
      (resp.st ≠ .ok → ∃ st, resp = errorResponse st ∧ t = (s.withPending rest).respond resp) := by
  rw [step_word hp]
  obtain ⟨t, resp, hst, ht⟩ :=
    exec_answers (decode (.request r)) (s.withPending rest) (decode_request_ne_sampleWord r)
  have ht := ht s.responses
  refine ⟨_, resp, ht, rfl, hst, fun herr => ?_⟩
  have hraise := Host.Outcome.next.inj (ht.symm.trans (exec_error (hst ▸ herr)))
  obtain rfl : resp = errorResponse _ := by simpa using congrArg State.responses hraise
  exact ⟨_, rfl, hraise⟩

/-- Every step adds the same responses to whatever was returned before it. -/
theorem step_history {s t : State} (h : step s = .next t) :
    ∃ out, t.responses = s.responses ++ out ∧
      ∀ rs, step (s.withResponses rs) = .next (t.withResponses (rs ++ out)) := by
  cases hp : s.pending with
  | nil =>
    obtain rfl : s = t := Host.Outcome.next.inj ((step_waiting hp).symm.trans h)
    refine ⟨[], (List.append_nil _).symm, fun rs => ?_⟩
    rw [List.append_nil]
    exact step_waiting hp
  | cons i rest =>
    match i with
    | .word (.request r) =>
      obtain ⟨u, resp, -, hu⟩ :=
        exec_answers (decode (.request r)) (s.withPending rest) (decode_request_ne_sampleWord r)
      obtain rfl : u.withResponses (s.responses ++ [resp]) = t :=
        Host.Outcome.next.inj ((hu s.responses).symm.trans ((step_word hp).symm.trans h))
      exact ⟨[resp], rfl, fun rs => (step_word (s := s.withResponses rs) hp).trans (hu rs)⟩
    | .word (.sample w) => exact absurd rfl (not_sample_of_step hp h w)
    | .reset d x =>
      obtain rfl : (s.withPending rest).resetTo d x = t := Host.Outcome.next.inj ((step_reset hp).symm.trans h)
      refine ⟨[], (List.append_nil _).symm, fun rs => ?_⟩
      rw [List.append_nil]
      exact step_reset hp

/-- The two states are one but for the responses returned, and those since `p` in the first are those since `q` in the
second. -/
def SameSince (p q : List Response) (s u : State) : Prop :=
  ∃ out, s.responses = p ++ out ∧ u = s.withResponses (q ++ out)

theorem SameSince.withResponses (s : State) (q : List Response) : SameSince s.responses q s (s.withResponses q) :=
  ⟨[], by simp, by simp⟩

theorem SameSince.step {p q : List Response} {s u t : State} (h : SameSince p q s u) (ht : step s = .next t) :
    ∃ v, Machine.step u = .next v ∧ SameSince p q t v := by
  obtain ⟨out, hs, rfl⟩ := h
  obtain ⟨new, hnew, hstep⟩ := step_history ht
  exact ⟨_, hstep _, out ++ new, by simp [hnew, hs], by simp⟩

/-! ## Errors -/

/-- Op codes 5, 6 and 7, whatever `DATA` and whatever the state (60_exceptions.md R141). -/
theorem execStatus_make_illegal {op : OpCode} (hop : 5 ≤ op.toNat) (data : Word) (s : State) :
    execStatus (decode (.request (Request.make op data))) s = .illegalOp := by
  have hops : ∀ op : OpCode, 5 ≤ op.toNat → op = 5#3 ∨ op = 6#3 ∨ op = 7#3 := by decide
  rcases hops op hop with rfl | h67
  · rw [decode_make_illegalOp5]
    rfl
  · rw [decode_make_illegalOp67 data h67]
    rfl

/-- Settles O33: the status of the three op codes is E_ILLEGAL_OP, and an error only returns its response. -/
theorem illegalOpCodesRejected : Obligations.IllegalOpCodesRejected := by
  refine ⟨fun s => rfl, fun op s => rfl, fun s op data rest hop hp => ⟨_, ?_, rfl, rfl⟩, rfl⟩
  have hst := execStatus_make_illegal hop data (s.withPending rest)
  rw [step_word hp, exec_error (by simp [hst]), hst]
  rfl

/-- Settles O12: the error leaves `CNT`, the store and `ET` as READ_SAMPLE reads them. -/
theorem overrunKeepsTheFrame : Obligations.OverrunKeepsTheFrame := by
  intro s b hphase
  have hready := s.phase_eq_ready.1 hphase
  exact ⟨_, exec_pushByte_ready hready, rfl, rfl, fun i hi =>
    ⟨_, rfl, exec_readSample_held hready hi, exec_readSample_held hready hi⟩⟩

/-- The status of a request by its op code, with CNT at most FRAME_LEN (60_exceptions.md R144). -/
theorem execStatus_make {s : State} (hle : s.cnt.toNat ≤ s.cfg.frameBytes) (op : OpCode) (data : Word) :
    execStatus (decode (.request (Request.make op data))) s =
      if 5 ≤ op.toNat then .illegalOp
      else if op = 2#3 ∧ s.cnt.toNat < 4 * s.cfg.n + 4 then .notReady
      else if op = 2#3 ∧ s.cfg.n ≤ data.toNat then .index
      else if op = 1#3 ∧ s.cnt.toNat = 4 * s.cfg.n + 4 then .overrun
      else .ok := by
  by_cases hill : 5 ≤ op.toNat
  · rw [execStatus_make_illegal hill, if_pos hill]
  have hops : ∀ op : OpCode, ¬ 5 ≤ op.toNat → op = 0#3 ∨ op = 1#3 ∨ op = 2#3 ∨ op = 3#3 ∨ op = 4#3 := by decide
  have hready : s.cnt = s.cfg.frameLen ↔ s.cnt.toNat = 4 * s.cfg.n + 4 := s.cnt_eq_frameLen_iff
  have hrecv : s.cnt ≠ s.cfg.frameLen ↔ s.cnt.toNat < 4 * s.cfg.n + 4 := by
    rw [Ne, hready]
    exact (Nat.lt_iff_le_and_ne.trans (and_iff_right hle)).symm
  rcases hops op hill with rfl | rfl | rfl | rfl | rfl
  · rw [decode_make_clear]
    rfl
  · rw [decode_make_pushByte, execStatus]
    simp [hready]
  · rw [decode_make_readSample, execStatus]
    simp [hrecv]
  · rw [decode_make_readStatus]
    rfl
  · rw [decode_make_extract]
    rfl

/-- Settles O31: a request is answered with the status of its operation, which is that of its op code. -/
theorem statusOfEveryRequest : Obligations.StatusOfEveryRequest := by
  refine ⟨fun s r rest hle hp => ?_, rfl, rfl, rfl, rfl, rfl, fun st => by cases st <;> decide⟩
  obtain ⟨t, resp, hstep, hresp, hst, herr⟩ := step_request_answers hp
  have hstatus := execStatus_make (s := s.withPending rest) hle r.op r.data
  rw [Request.make_op_data] at hstatus
  refine ⟨t, resp, hstep, hresp, hst.trans hstatus, fun hne => ?_⟩
  obtain ⟨_, -, rfl⟩ := herr hne
  exact ⟨rfl, rfl, rfl, rfl, rfl⟩

/-- Settles O32: a failed request leaves the state it found but for its response, and no step reads the responses
returned before it. -/
theorem errorIsLocalAndForgotten : Obligations.ErrorIsLocalAndForgotten := by
  intro s t r rest resp hp ht hresp hne
  obtain ⟨t', resp', ht', hresp', -, herr⟩ := step_request_answers hp
  obtain rfl : t' = t := Host.Outcome.next.inj (ht'.symm.trans ht)
  obtain rfl : resp' = resp := by simpa using hresp'.symm.trans hresp
  obtain ⟨st, rfl, rfl⟩ := herr hne
  refine ⟨rfl, rfl, rfl, rfl, rfl, rfl, rfl, ⟨rfl, rfl, rfl, rfl, rfl⟩, rfl, fun k u hu => ?_⟩
  have hsame := SameSince.withResponses (s.withPending rest) (s.responses ++ [errorResponse st])
  obtain ⟨v, hv, out, hout, rfl⟩ := run_simulation (fun _ _ _ h => h.step) hu hsame
  exact ⟨_, out, hv, ⟨rfl, rfl, rfl, rfl, rfl⟩, rfl, hout, rfl⟩

end Sys2Proof.Machine

namespace Sys2Proof.Machine

/-! ## CLEAR and reset look alike -/

/-- With no byte accepted after either, a reset and a CLEAR look alike, the CLEAR's own response left out
(70_reset_and_hazards.md R161). -/
theorem LookAlike.resetTo_clearFrame {s : State} (hwf : s.samples.wf s.cfg.n = true) (d : List Word) (x : Word)
    (r : Response) :
    LookAlike s.responses (s.responses ++ [r]) (s.resetTo d x) (s.clearFrame.respond r) :=
  .of_cnt_zero rfl rfl rfl rfl rfl (Memory.wf_ofWords _ d) hwf ⟨[], by simp, by simp⟩

/-- Settles O37: the states a reset and a CLEAR leave look alike, and every run keeps them so; what a reset event leaves
is R34's. -/
theorem clearAndResetLookAlike : Obligations.ClearAndResetLookAlike := by
  refine ⟨fun s t d x data ins k hwf h => ?_, fun s t h => ?_, fun s draws et rest hp => ?_⟩
  · have hlook := LookAlike.resetTo_clearFrame (s := s.withPending ins) hwf d x { st := .ok }
    rw [run_of_step (step_reset rfl)] at h
    obtain ⟨u, hu, hr⟩ := run_simulation (fun _ _ _ hr => hr.step_lookAlike) h hlook
    obtain ⟨out, hout, hout'⟩ := hr.responses
    exact ⟨u, out, (run_of_step (step_clear rfl)).trans hu, hout, hout', hr.cnt, hr.acc⟩
  · obtain rfl : s.clearFrame.respond { st := .ok } = t := Host.Outcome.next.inj ((exec_clear s).symm.trans h)
    exact ⟨rfl, rfl⟩
  · obtain ⟨t, ht, -, -, -, -, hread, het, hresp, -⟩ := resetLeavesStatedValues.2 s draws et rest hp
    exact ⟨t, ht, hresp, het, hread⟩

end Sys2Proof.Machine

namespace Sys2Proof

/-! ## A request by its op code -/

/-- Every request is an op code and its `DATA`, so a claim about all requests is one about each op code (30_encoding.md
R61, R62). -/
theorem Request.opCases {P : Request → Prop} (clear : ∀ data, P (.make 0#3 data)) (pushByte : ∀ data, P (.make 1#3 data))
    (readSample : ∀ data, P (.make 2#3 data)) (readStatus : ∀ data, P (.make 3#3 data))
    (extract : ∀ data, P (.make 4#3 data)) (illegalOp5 : ∀ data, P (.make 5#3 data))
    (illegalOp67 : ∀ op data, op = 6#3 ∨ op = 7#3 → P (.make op data)) (r : Request) : P r := by
  have hops : ∀ op : OpCode, op = 0#3 ∨ op = 1#3 ∨ op = 2#3 ∨ op = 3#3 ∨ op = 4#3 ∨ op = 5#3 ∨ op = 6#3 ∨ op = 7#3 := by
    decide
  rw [← r.make_op_data]
  rcases hops r.op with h | h | h | h | h | h | h67
  · exact h ▸ clear r.data
  · exact h ▸ pushByte r.data
  · exact h ▸ readSample r.data
  · exact h ▸ readStatus r.data
  · exact h ▸ extract r.data
  · exact h ▸ illegalOp5 r.data
  · exact illegalOp67 r.op r.data h67

/-- A mask applies to `OP` and to `DATA` apart. -/
theorem Request.make_and (op op' : OpCode) (data data' : Word) :
    make op data &&& make op' data' = make (op &&& op') (data &&& data') := by
  apply BitVec.eq_of_getLsbD_eq
  intro i _
  simp only [BitVec.getLsbD_and, getLsbD_make]
  split <;> rfl

end Sys2Proof

namespace Sys2Proof.Machine

/-! ## The encoder and the decoder -/

/-- Settles O1: each constructor by the decoding lemma of its op code, at every operand. -/
theorem decodeOfEncode : Obligations.DecodeOfEncode := by
  intro i hwf
  cases i with
  | clear => exact decode_make_clear 0#32
  | pushByte b => exact decode_pushRequest b
  | readSample i => exact decode_make_readSample i
  | readStatus => exact decode_make_readStatus 0#32
  | extract w => exact decode_make_extract w
  | illegalOp5 => exact decode_make_illegalOp5 0#32
  | illegalOp67 op => exact decode_make_illegalOp67 0#32 (by simpa [Instr.wf] using hwf)
  | sampleWord w => rfl

/-- The bits of `DATA` that the operation of an op code reads (30_encoding.md R64). -/
def usedData (op : OpCode) : Word :=
  if op = 1#3 then 0xFF#32 else if op = 2#3 ∨ op = 4#3 then 0xFFFFFFFF#32 else 0#32

theorem usedBits_make (op : OpCode) (data : Word) : usedBits (Request.make op data) = Request.make 7#3 (usedData op) := by
  rw [usedBits, Request.op_make]
  revert op
  decide

/-- `OP` is used whole, and of `DATA` the bits that the operation reads. -/
theorem make_and_usedBits (op : OpCode) (data : Word) :
    Request.make op data &&& usedBits (Request.make op data) = Request.make op (data &&& usedData op) := by
  rw [usedBits_make, Request.make_and, show 7#3 = BitVec.allOnes 3 from rfl, BitVec.and_allOnes]

/-- Masking the low byte is taking it and padding it with zeros. -/
theorem and_lowByte (data : Word) : data &&& 0xFF#32 = BitVec.setWidth 32 (BitVec.extractLsb' 0 8 data) := by
  apply BitVec.eq_of_toNat_eq
  have hlow : data.toNat &&& 255 = data.toNat % 2 ^ 8 := Nat.and_two_pow_sub_one_eq_mod data.toNat 8
  simp [hlow]
  omega

theorem and_allBits (data : Word) : data &&& 0xFFFFFFFF#32 = data := BitVec.and_allOnes

/-- Settles O2: for each op code the encoder writes back the op code and the part of `DATA` that the decoder took. -/
theorem encodeOfDecodeClearsIgnoredBits : Obligations.EncodeOfDecodeClearsIgnoredBits := by
  intro r
  cases r using Request.opCases with
  | clear data => simp [make_and_usedBits, encode, usedData]
  | pushByte data => simp [make_and_usedBits, encode, usedData, and_lowByte]
  | readSample data => simp [make_and_usedBits, encode, usedData, and_allBits]
  | readStatus data => simp [make_and_usedBits, encode, usedData]
  | extract data => simp [make_and_usedBits, encode, usedData, and_allBits]
  | illegalOp5 data => simp [make_and_usedBits, encode, usedData]
  | illegalOp67 op data h =>
    have hnone : usedData op = 0#32 := by rcases h with rfl | rfl <;> rfl
    simp [decode_make_illegalOp67 data h, make_and_usedBits, encode, hnone]

/-! ## The rows of the opcode table -/

/-- Every row's mask lies in `OP`, so no row reads `DATA` (30_encoding.md R73). -/
theorem selects_ignores_data {row : TableRow} (h : row ∈ requestTable) (op : OpCode) (data : Word) :
    row.selects (Request.make op data) = row.selects (Request.make op 0#32) := by
  have hmask : ∀ row ∈ requestTable, row.mask = Request.make row.mask.op 0#32 := by decide
  rw [TableRow.selects, TableRow.selects, hmask row h, Request.make_and, Request.make_and, BitVec.and_zero,
    BitVec.and_zero]

/-- The rows that select a request are those of its op code. -/
theorem filter_requestTable_make (op : OpCode) (data : Word) :
    requestTable.filter (fun row => row.selects (Request.make op data)) =
      requestTable.filter (fun row => row.selects (Request.make op 0#32)) :=
  List.filter_congr fun _ h => selects_ignores_data h op data

/-- Settles O3: the rows selected depend on the op code alone, and for each op code the table is evaluated. -/
theorem everyRequestSelectsOneRow : Obligations.EveryRequestSelectsOneRow := by
  intro r
  cases r using Request.opCases with
  | clear data => rw [filter_requestTable_make, decode_make_clear]; rfl
  | pushByte data => rw [filter_requestTable_make, decode_make_pushByte]; rfl
  | readSample data => rw [filter_requestTable_make, decode_make_readSample]; rfl
  | readStatus data => rw [filter_requestTable_make, decode_make_readStatus]; rfl
  | extract data => rw [filter_requestTable_make, decode_make_extract]; rfl
  | illegalOp5 data => rw [filter_requestTable_make, decode_make_illegalOp5]; rfl
  | illegalOp67 op data h =>
    rw [filter_requestTable_make, decode_make_illegalOp67 data h]
    rcases h with rfl | rfl <;> rfl

/-- Settles O6: each number is evaluated. -/
theorem specWordsDecode : Obligations.SpecWordsDecode :=
  ⟨rfl, rfl, rfl, rfl, rfl, rfl, rfl, rfl, rfl⟩

/-! ## The step -/

/-- Settles O7: a step decodes the word that is next, and the word of an operation decodes to it. -/
theorem stepPerformsDecodedRequest : Obligations.StepPerformsDecodedRequest := by
  refine ⟨fun i s rest hwf hp => ?_, fun r s rest hp => step_word hp, fun s hp => step_waiting hp⟩
  rw [step_word hp, decodeOfEncode i hwf]
  rfl

/-- Settles O8: each of the things an operation can do returns one response, and none touches the inputs that wait or the
build. -/
theorem everyRequestHasOneResponse : Obligations.EveryRequestHasOneResponse := by
  intro s r rest hp
  rw [step_word hp]
  rcases exec_cases (decode (.request r)) (s.withPending rest) (decode_request_ne_sampleWord r) with
    ⟨-, he⟩ | ⟨b, -, -, he⟩ | ⟨-, -, resp, he⟩
  · exact ⟨_, _, he, rfl, rfl, rfl⟩
  · exact ⟨_, _, he, rfl, rfl, rfl⟩
  · exact ⟨_, resp, he, rfl, rfl, rfl⟩

@[simp] theorem State.withResponses_withResponses (rs rs' : List Response) (s : State) :
    (s.withResponses rs).withResponses rs' = s.withResponses rs' := rfl

@[simp] theorem State.withResponses_respond (rs : List Response) (r : Response) (s : State) :
    (s.respond r).withResponses rs = s.withResponses rs := rfl

/-- An operation that neither clears nor accepts a byte only returns a response, and the same one whatever was returned
before. -/
theorem exec_only_answers {i : Instr} (hclear : i ≠ .clear) (hpush : ∀ b, i ≠ .pushByte b)
    (hsample : ∀ w, i ≠ .sampleWord w) (s : State) :
    ∃ resp, ∀ rs, exec i (s.withResponses rs) = .next (s.withResponses (rs ++ [resp])) := by
  obtain ⟨t, resp, -, ht⟩ := exec_answers i s hsample
  rcases exec_cases i s hsample with ⟨hc, -⟩ | ⟨b, hb, -⟩ | ⟨-, -, r, he⟩
  · exact absurd hc hclear
  · exact absurd hb (hpush b)
  · have hnext : t.withResponses (s.responses ++ [resp]) = s.respond r :=
      Host.Outcome.next.inj ((ht s.responses).symm.trans he)
    have hsame (rs : List Response) : t.withResponses rs = s.withResponses rs := by
      simpa using congrArg (State.withResponses rs) hnext
    exact ⟨resp, fun rs => (ht rs).trans (congrArg _ (hsame _))⟩

/-- Settles O28: none of these operations is CLEAR or PUSH_BYTE. -/
theorem readsAndIllegalRequestsChangeNothing : Obligations.ReadsAndIllegalRequestsChangeNothing := by
  intro s i hi
  have hothers : i ≠ .clear ∧ (∀ b, i ≠ .pushByte b) ∧ ∀ w, i ≠ .sampleWord w := by
    rcases hi with ⟨j, rfl⟩ | rfl | ⟨w, rfl⟩ | rfl | ⟨op, rfl⟩ <;> simp
  obtain ⟨hclear, hpush, hsample⟩ := hothers
  obtain ⟨resp, h⟩ := exec_only_answers hclear hpush hsample s
  exact ⟨resp, h s.responses, h (s.responses ++ [resp])⟩

/-- Settles O34: the layout row is refused, and the decoder never answers it for a request. -/
theorem sampleWordIsNoOperation : Obligations.SampleWordIsNoOperation :=
  ⟨fun _ _ => rfl, fun w r => decode_request_ne_sampleWord r w⟩

/-! ## The build and the invariant -/

theorem Config.ofNat?_of_range {n : Nat} (h : 1 ≤ n ∧ n ≤ 1073741822) : Config.ofNat? n = some ⟨n, h.1, h.2⟩ :=
  dif_pos h

theorem Config.ofNat?_eq_none {n : Nat} (h : ¬(1 ≤ n ∧ n ≤ 1073741822)) : Config.ofNat? n = none :=
  dif_neg h

/-- Settles O9: inside the range there is a build and outside it none, and FRAME_LEN does not wrap. -/
theorem buildRangeAndFrameLen : Obligations.BuildRangeAndFrameLen := by
  refine ⟨fun n => ⟨?_, fun h => ⟨_, Config.ofNat?_of_range h, rfl⟩⟩, fun n => ?_, Config.toNat_frameLen, rfl, rfl⟩
  · rintro ⟨c, -, rfl⟩
    exact ⟨c.positive, c.bounded⟩
  · by_cases h : 1 ≤ n ∧ n ≤ 1073741822
    · simp [Config.ofNat?_of_range h]
      omega
    · simp [Config.ofNat?_eq_none h]
      omega

/-- Settles O38, by `step_keeps_inv`: each of the things a step can do keeps the count, the store and the build. -/
theorem stepKeepsInvariant : Obligations.StepKeepsInvariant := fun _ _ => step_keeps_inv

/-- Settles O39: no byte is accepted at power-on, and the empty store is canonical. -/
theorem powerOnMeetsInvariant : Obligations.PowerOnMeetsInvariant :=
  ⟨State.inv_powerOn, State.inv_powerOn Config.reference⟩

end Sys2Proof.Machine

namespace Sys2Proof.Machine

/-! ## Binary64: nearest, exact, normal -/

/-- Settles O22: the conversion of a small integer is finite, non-negative and exact. -/
theorem integersConvertExactly : Obligations.IntegersConvertExactly := by
  intro n hn
  obtain ⟨hsign, hfin⟩ := (nonneg_finite_iff (f64 n)).2 (toNat_f64_lt_infinity hn)
  exact ⟨hfin, hsign, f64ToRat_f64 hn⟩

/-- The last bit of a pattern is its parity. -/
theorem getLsbD_zero_eq (x : F64) : x.getLsbD 0 = decide (x.toNat % 2 = 1) := by
  rw [BitVec.getLsbD, Nat.testBit_zero]

/-- Only `+0.0` among the finite non-negative patterns stands for 0. -/
theorem eq_zero_of_f64ToRat {x : F64} (hx : x.toNat < 2047 * 2 ^ 52) (h : f64ToRat x = 0) : x = 0#64 :=
  RoundsTo.eq_zero (h ▸ roundsTo_self hx)

/-- Rounding gives no sign, so a finite result is below plus infinity. -/
theorem RoundsTo.lt_infinity {v : ℚ} {x : F64} (h : RoundsTo v x) (hfin : f64IsFinite x = true) :
    x.toNat < 2047 * 2 ^ 52 := by
  obtain ⟨p, q, e, -, -, hround⟩ := h
  have hle : x.toNat ≤ 2047 * 2 ^ 52 := hround.trans_le (roundMagnitude_le p q e)
  rw [f64IsFinite, f64Exponent_eq, bne_iff_ne] at hfin
  omega

/-- What a rational is rounded to is the nearest finite value, and the even one of two as near (00_scope.md R9). -/
theorem RoundsTo.nearest {v : ℚ} {x z : F64} (h : RoundsTo v x) (hx : x.toNat < 2047 * 2 ^ 52)
    (hz : z.toNat < 2047 * 2 ^ 52) (hne : z ≠ x) :
    |v - f64ToRat x| ≤ |v - f64ToRat z| ∧
      (|v - f64ToRat x| = |v - f64ToRat z| → x.getLsbD 0 = false ∧ z.getLsbD 0 = true) := by
  obtain ⟨p, q, e, hq, rfl, hround⟩ := id h
  rcases Nat.eq_zero_or_pos p with rfl | hp
  · have hzero : x = 0#64 := RoundsTo.eq_zero (by simpa using h)
    subst hzero
    have hz0 : f64ToRat z ≠ 0 := fun h0 => hne (eq_zero_of_f64ToRat hz h0)
    exact ⟨by simp [f64ToRat_zero], fun heq => absurd (by simpa [f64ToRat_zero] using heq.symm) hz0⟩
  · have hne' : z.toNat ≠ roundMagnitude p q e := fun heq => hne (BitVec.eq_of_toNat_eq (heq.trans hround.symm))
    have hnear := round_nearest hp hq e (hround ▸ hx) z.toNat hne'
    rw [← hround, ← f64ToRat_eq hx, ← f64ToRat_eq hz] at hnear
    obtain ⟨hle, hties⟩ := hnear
    refine ⟨hle, fun heq => ?_⟩
    obtain ⟨heven, hodd⟩ := hties heq
    rw [getLsbD_zero_eq, getLsbD_zero_eq, heven, hodd]
    exact ⟨rfl, rfl⟩

/-- Settles O23: the quotient is the exact one, rounded to the nearest value. -/
theorem divisionRoundsToNearestEven : Obligations.DivisionRoundsToNearestEven := by
  intro x y z hx hsx hy hsy hy0 hfin hz hsz hne
  have hx := (nonneg_finite_iff x).1 ⟨hsx, hx⟩
  have hy := (nonneg_finite_iff y).1 ⟨hsy, hy⟩
  have hz := (nonneg_finite_iff z).1 ⟨hsz, hz⟩
  have hround := roundsTo_fdiv hx hy hy0
  exact hround.nearest (hround.lt_infinity hfin) hz hne

/-- Settles O24: the product is the exact one, rounded to the nearest value. -/
theorem productRoundsToNearestEven : Obligations.ProductRoundsToNearestEven := by
  intro x y z hx hsx hy hsy hfin hz hsz hne
  have hx := (nonneg_finite_iff x).1 ⟨hsx, hx⟩
  have hy := (nonneg_finite_iff y).1 ⟨hsy, hy⟩
  have hz := (nonneg_finite_iff z).1 ⟨hsz, hz⟩
  have hround := roundsTo_fmul hx hy
  exact hround.nearest (hround.lt_infinity hfin) hz hne

section
variable (c : Config) {et : Word} {i : Nat}

/-- A quotient other than zero is at least that of the smallest `ET` and the largest N (41_field_extract.md R108). -/
theorem smallestQuotient_le_nsPerSample (het : et ≠ 0#32) :
    (fdiv (f64 1) (f64 1073741822)).toNat ≤ (nsPerSample c.n et).toNat := by
  have hround := roundsTo_fdiv (toNat_f64_lt_infinity (n := 1) (by norm_num))
    (toNat_f64_lt_infinity (n := 1073741822) (by norm_num)) (f64IsZero_f64 (by norm_num) (by norm_num))
  rw [f64ToRat_f64 (by norm_num), f64ToRat_f64 (by norm_num)] at hround
  refine hround.mono (roundsTo_nsPerSample c et) ?_
  have hone : (1 : ℚ) ≤ et.toNat := by
    have : 1 ≤ et.toNat := by bv_omega
    exact_mod_cast this
  have hpos : (0 : ℚ) < c.n := by exact_mod_cast c.positive
  exact div_le_div₀ (by positivity) (by exact_mod_cast hone) hpos (by exact_mod_cast c.bounded)

/-- An offset other than that of index 0 is at least the quotient. -/
theorem nsPerSample_le_timeOffset (h0 : 0 < i) (hi : i < c.n) :
    (nsPerSample c.n et).toNat ≤ (timeOffset c.n i et).toNat := by
  have hq := toNat_nsPerSample_lt_infinity c et
  refine (roundsTo_self hq).mono (roundsTo_timeOffset c et hi) ?_
  exact le_mul_of_one_le_left (f64ToRat_nonneg hq) (by exact_mod_cast h0)

end

/-- Settles O26: each result is zero where an operand is, and otherwise rounding is monotone above the smallest
operands. -/
theorem arithmeticStaysNormal : Obligations.ArithmeticStaysNormal := by
  intro c et i v hi
  have hinf : 2047 * 2 ^ 52 = 0x7FF0000000000000 := by norm_num
  rw [← hinf]
  refine ⟨?_, ?_, ?_, by decide, by decide⟩
  · by_cases hv : v = 0#6
    · exact .inl (hv ▸ volts_zero)
    · exact .inr ⟨voltsPerStep_le_volts hv, (toNat_volts_le v).trans_lt (by norm_num)⟩
  · by_cases het : et = 0#32
    · exact .inl (het ▸ nsPerSample_et_zero c)
    · exact .inr ⟨smallestQuotient_le_nsPerSample c het, toNat_nsPerSample_lt_infinity c et⟩
  · by_cases het : et = 0#32
    · exact .inl (het ▸ timeOffset_et_zero c hi)
    · rcases Nat.eq_zero_or_pos i with rfl | h0
      · exact .inl (timeOffset_index_zero c et)
      · exact .inr ⟨(smallestQuotient_le_nsPerSample c het).trans (nsPerSample_le_timeOffset c h0 hi),
          toNat_timeOffset_lt_infinity c et hi⟩

/-! ## The sample store as data -/

/-- A canonical store that reads like one beginning at index `j` begins at `j` or before. -/
theorem Memory.lower_bound_le {n lo j : Nat} {x : Word} {rest m : Memory} (hm : Memory.wfFrom n lo m = true)
    (hx : x ≠ Memory.unlisted) (h : Memory.read ((j, x) :: rest) j = m.read j) : lo ≤ j := by
  by_contra hlt
  rw [Memory.read_below hm (not_le.1 hlt), Memory.read_cons, if_pos rfl] at h
  exact hx h

/-- Stores canonical from one bound that read alike are one list. -/
theorem Memory.eq_of_read_eq {n lo : Nat} {m m' : Memory} (hm : Memory.wfFrom n lo m = true)
    (hm' : Memory.wfFrom n lo m' = true) (h : ∀ k, m.read k = m'.read k) : m = m' := by
  induction m generalizing lo m' with
  | nil =>
    cases m' with
    | nil => rfl
    | cons p' rest' =>
      obtain ⟨j', x'⟩ := p'
      obtain ⟨-, -, hx', -⟩ := (Memory.wfFrom_cons ..).1 hm'
      have := Memory.lower_bound_le (n := n) (lo := j' + 1) rfl hx' (h j').symm
      omega
  | cons p rest ih =>
    obtain ⟨j, x⟩ := p
    obtain ⟨-, hjn, hx, hrest⟩ := (Memory.wfFrom_cons ..).1 hm
    cases m' with
    | nil =>
      have := Memory.lower_bound_le (n := n) (lo := j + 1) rfl hx (h j)
      omega
    | cons p' rest' =>
      obtain ⟨j', x'⟩ := p'
      obtain ⟨-, hjn', hx', hrest'⟩ := (Memory.wfFrom_cons ..).1 hm'
      have hj' : j' ≤ j := Memory.lower_bound_le ((Memory.wfFrom_cons ..).2 ⟨le_rfl, hjn', hx', hrest'⟩) hx (h j)
      have hj : j ≤ j' := Memory.lower_bound_le ((Memory.wfFrom_cons ..).2 ⟨le_rfl, hjn, hx, hrest⟩) hx' (h j').symm
      obtain rfl : j = j' := le_antisymm hj hj'
      have hxx : x = x' := by simpa [Memory.read_cons] using h j
      have hreads : ∀ k, Memory.read rest k = Memory.read rest' k := by
        intro k
        rcases Nat.lt_or_ge j k with hk | hk
        · simpa [Memory.read_cons, hk.ne] using h k
        · rw [Memory.read_below hrest (by omega), Memory.read_below hrest' (by omega)]
      rw [hxx, ih hrest hrest' hreads]

/-- Settles O40, by induction on the two lists. -/
theorem canonicalStoresAreExtensional : Obligations.CanonicalStoresAreExtensional :=
  fun _ _ _ hm hm' h => Memory.eq_of_read_eq hm hm' h

/-! ## The bits of a stored word that a response shows -/

/-- The codes depend on the 12 field bits alone (30_encoding.md R66). -/
theorem chA_chB_eq_of_fields {w v : Word} (h : w &&& 0x0BC60F80#32 = v &&& 0x0BC60F80#32) :
    chA w = chA v ∧ chB w = chB v := by
  have hA : chA 0x0BC60F80#32 = BitVec.allOnes 6 := by decide
  have hB : chB 0x0BC60F80#32 = BitVec.allOnes 6 := by decide
  constructor
  · rw [← chA_and_of_full hA w, h, chA_and_of_full hA]
  · rw [← chB_and_of_full hB w, h, chB_and_of_full hB]

/-- Settles O29: an error shows no word of the store, and a sample response its two codes alone. -/
theorem onlyFieldBitsOfStoreObservable : Obligations.OnlyFieldBitsOfStoreObservable := by
  intro s t i hcfg hcnt het hbits
  by_cases hs : s.cnt = s.cfg.frameLen
  · have ht : t.cnt = t.cfg.frameLen := by rw [hcnt, hcfg, hs]
    by_cases hi : i.toNat < s.cfg.n
    · obtain ⟨hA, hB⟩ := chA_chB_eq_of_fields (hbits i.toNat hi)
      have hresp : sampleResponse s (s.samples.read i.toNat) (timeOffset s.cfg.n i.toNat s.et) =
          sampleResponse t (t.samples.read i.toNat) (timeOffset t.cfg.n i.toNat t.et) := by
        rw [sampleResponse_of_ready hs, sampleResponse_of_ready ht, hA, hB, hcfg, het]
      exact ⟨_, exec_readSample_held hs hi, hresp ▸ exec_readSample_held ht (hcfg ▸ hi)⟩
    · have hi := not_lt.1 hi
      exact ⟨_, exec_readSample_outOfRange hs hi, exec_readSample_outOfRange ht (hcfg ▸ hi)⟩
  · have ht : t.cnt ≠ t.cfg.frameLen := by rwa [hcnt, hcfg]
    exact ⟨_, exec_readSample_recv hs, exec_readSample_recv ht⟩

/-! ## The wire format of a frame -/

/-- A frame is a list of words like any other, `ET` the last of them (20_memory.md R43). -/
theorem wireBytes_eq_flatMap (ws : List Word) (et : Word) : wireBytes ws et = (ws ++ [et]).flatMap wordBytes := by
  simp [wireBytes]

theorem getElem?_wordBytes (w : Word) {j : Nat} (hj : j < 4) : (wordBytes w)[j]? = some (getByte w j) := by
  match j, hj with
  | 0, _ => rfl
  | 1, _ => rfl
  | 2, _ => rfl
  | 3, _ => rfl

/-- Byte `j` of word `k` stands at `4 * k + j` (20_memory.md R44). -/
theorem getElem?_flatMap_wordBytes {ws : List Word} {k : Nat} {w : Word} (hw : ws[k]? = some w) {j : Nat} (hj : j < 4) :
    (ws.flatMap wordBytes)[4 * k + j]? = some (getByte w j) := by
  induction ws generalizing k with
  | nil => simp at hw
  | cons v ws ih =>
    have hlen : (wordBytes v).length = 4 := rfl
    rw [List.flatMap_cons]
    cases k with
    | zero =>
      obtain rfl : v = w := by simpa using hw
      rw [List.getElem?_append_left (by omega), Nat.mul_zero, Nat.zero_add, getElem?_wordBytes v hj]
    | succ k =>
      rw [List.getElem?_append_right (by omega), hlen, show 4 * (k + 1) + j - 4 = 4 * k + j by omega]
      exact ih (by simpa using hw)

theorem length_wireBytes (ws : List Word) (et : Word) : (wireBytes ws et).length = 4 * ws.length + 4 := by
  simp [wireBytes, List.length_flatMap, wordBytes]
  omega

section
variable {ws : List Word} (et : Word)

theorem getElem?_wireBytes {k : Nat} {w : Word} (hw : ws[k]? = some w) {j : Nat} (hj : j < 4) :
    (wireBytes ws et)[4 * k + j]? = some (getByte w j) := by
  have hk : k < ws.length := (List.getElem?_eq_some_iff.1 hw).1
  rw [wireBytes_eq_flatMap]
  exact getElem?_flatMap_wordBytes ((List.getElem?_append_left hk).trans hw) hj

theorem le32_wireBytes {k : Nat} {w : Word} (hw : ws[k]? = some w) : le32 (wireBytes ws et) (4 * k) = w :=
  le32_eq_of_bytes fun _ hj => getElem?_wireBytes et hw hj

theorem le32_wireBytes_et : le32 (wireBytes ws et) (4 * ws.length) = et := by
  rw [wireBytes_eq_flatMap]
  exact le32_eq_of_bytes fun _ hj => getElem?_flatMap_wordBytes List.getElem?_concat_length hj

end

/-- The inputs of a line FRAME are its bytes' PUSH_BYTE requests (30_encoding.md R71). -/
theorem programInputs_frame (ws : List Word) (et : Word) :
    programInputs [.frame ws et] = (wireBytes ws et).map fun b => .word (.request (pushRequest b)) := by
  simp [programInputs, lineRequests]

theorem offeredByte_pushRequest (b : Byte) : offeredByte (.word (.request (pushRequest b))) = some b :=
  (offeredByte_word _ b).2 (decode_pushRequest b)

theorem offeredBytes_frame (ws : List Word) (et : Word) : offeredBytes (programInputs [.frame ws et]) = wireBytes ws et := by
  have hall : offeredByte ∘ (fun b => .word (.request (pushRequest b))) = some := funext offeredByte_pushRequest
  rw [programInputs_frame, offeredBytes, List.filterMap_map, hall, List.filterMap_some]

theorem withinFrame_frame (ws : List Word) (et : Word) : WithinFrame (programInputs [.frame ws et]) := by
  intro i hi
  rw [programInputs_frame] at hi
  obtain ⟨b, -, rfl⟩ := List.mem_map.1 hi
  simp [isRequest, isBoundary, decode_pushRequest]

/-- Settles O30: word `k` of a frame is the four bytes from `4 * k` on, `ET` after the samples, and FRAME offers them one
for one. -/
theorem frameLineIsLittleEndian : Obligations.FrameLineIsLittleEndian := fun ws et =>
  ⟨length_wireBytes ws et, fun _ _ hw => ⟨le32_wireBytes et hw, fun _ hj => getElem?_wireBytes et hw hj⟩,
    le32_wireBytes_et et, offeredBytes_frame ws et, withinFrame_frame ws et⟩

/-! ## A frame built from codes -/

/-- After CLEAR and a FRAME of N words the receiver holds that frame (40_frame_input.md R82). -/
theorem runInputs_clear_frame {s : State} {ws : List Word} (et : Word) (hwf : s.samples.wf s.cfg.n = true)
    (hlen : ws.length = s.cfg.n) :
    ∃ t, runInputs (programInputs [.clear, .frame ws et]) s = .next t ∧ t.cfg = s.cfg ∧
      HoldsBytes t (wireBytes ws et) := by
  have hfull : (offeredBytes (programInputs [.frame ws et])).length = s.cfg.frameBytes := by
    rw [offeredBytes_frame, length_wireBytes, hlen, Config.frameBytes]
  have h := runInputs_wholeFrame (first := .word (.request (Request.make 0#3 0#32))) hwf
    ((isBoundary_word _).2 (decode_make_clear 0#32)) (withinFrame_frame ws et) hfull
  rwa [offeredBytes_frame] at h

/-- READ_SAMPLE of a held frame answers the words the frame was built from (42_sample_readout.md R120). -/
theorem HoldsBytes.exec_readSample_word {s : State} {ws : List Word} {et : Word} (h : HoldsBytes s (wireBytes ws et))
    (hlen : ws.length = s.cfg.n) {i w : Word} (hw : ws[i.toNat]? = some w) :
    exec (.readSample i) s = .next (s.respond (sampleResponse s w (timeOffset s.cfg.n i.toNat et))) := by
  have hi : i.toNat < ws.length := (List.getElem?_eq_some_iff.1 hw).1
  have hfull : (wireBytes ws et).length = s.cfg.frameBytes := by rw [length_wireBytes, hlen, Config.frameBytes]
  have hread : s.samples.read i.toNat = w := by
    rw [h.word _ (hlen ▸ hi) (by rw [length_wireBytes]; omega), le32_wireBytes et hw]
  have het : s.et = et := by rw [h.et hfull, ← hlen, le32_wireBytes_et]
  rw [exec_readSample_held (h.ready_iff.2 hfull) (hlen ▸ hi), hread, het]

/-- Settles O44: after CLEAR the receiver holds the frame, and its words carry the codes they were built from. -/
theorem syntheticFrameRoundTrip : Obligations.SyntheticFrameRoundTrip := by
  intro s codes et hwf hlen
  obtain ⟨t, ht, hcfg, h⟩ :=
    runInputs_clear_frame (ws := codes.map fun p => encodeCodes p.1 p.2) et hwf ((List.length_map _).trans hlen)
  refine ⟨t, ht, fun i a b hab => ?_⟩
  have hread := h.exec_readSample_word (i := i) (w := encodeCodes a b) (by rw [List.length_map, hlen, hcfg]) (by simp [hab])
  exact ⟨_, hread, rfl, chA_encodeCodes a b, chB_encodeCodes a b, congrArg volts (chA_encodeCodes a b),
    congrArg volts (chB_encodeCodes a b), by rw [← hcfg]; rfl⟩

end Sys2Proof.Machine
